-- ==== Sys2Proof/Word.lean ====
section
/-! DEFINITION. The words of the block: the byte of STREAM and BUS (R32, R36) and the 32-bit tick count (R13). -/

namespace Sys2Proof

/-- A byte of STREAM, BUS or SOURCE: 8 bits, unsigned (R32, R36). -/
abbrev Byte := BitVec 8

/-- The tick counter TICKS and its working copy: 32 bits, two's complement, read as signed by `BitVec.toInt` (R13). -/
abbrev Ticks := BitVec 32

end Sys2Proof
end

