-- ==== Sys2Proof/Config.lean ====
section
/-! DEFINITION. The constants the source fixes, the parameters it leaves to the implementation (R6), and the free
values of what it leaves unspecified (U5). -/

namespace Sys2Proof

/-- FREQ_ARITH: the arithmetic of `encode_frequency` (R6, R111, U6). -/
inductive FreqArith where
  | binary64
  | exact
deriving DecidableEq, Repr

/-- The parameters R6 leaves to the implementation. They are carried beside the registers of State, and no step
writes them, so every statement over all states is a statement over all parameter values (log entry 3). -/
structure Params where
  /-- AW, the width of OFFSET, LEN and LOOP_OFFSET (D2). -/
  aw : Nat
  /-- NOISE_BIT4, bit 4 of the `encode_noise` byte (R60, C3). -/
  noiseBit4 : Bool
  /-- FREQ_ARITH (D15). -/
  freqArith : FreqArith
deriving DecidableEq, Repr

/-- The documented values of R6: AW 32 (suggested), NOISE_BIT4 1, FREQ_ARITH binary64. -/
def Params.documented : Params := { aw := 32, noiseBit4 := true, freqArith := .binary64 }

namespace Config

/-- VGM_VERSION (R6). -/
def vgmVersion : Nat := 0x150
/-- PSG_CLOCK (R6). -/
def psgClock : Nat := 3579545
/-- HEADER_LEN (R6). -/
def headerLen : Nat := 64
/-- SAMPLES_PER_FRAME (R6). -/
def samplesPerFrame : Nat := 735
/-- REG_MAX, the clamp of the tone register (R6, R112). -/
def regMax : Nat := 1021
/-- TONE_DIVIDER, 2 * 16 (R6). -/
def toneDivider : Nat := 32
/-- RESET_SEQ (R6, R122). -/
def resetSeq : List Byte := [0x9F#8, 0xBF#8, 0xDF#8, 0xFF#8]
/-- The magic "Vgm " of the header, in file order (R164). -/
def magic : List Byte := [0x56#8, 0x67#8, 0x6D#8, 0x20#8]

/-- Free value: LOOP_OFFSET while LOOP_VALID = 0 (R15, U5). -/
opaque freeLoopOffset : Nat → Nat
/-- Free value: W_OFFSET outside a FRAME (R18, U5). -/
opaque freeOffset : Nat → Nat
/-- Free value: W_TICKS outside a FRAME (R18, U5). -/
opaque freeTicks : Nat → Ticks
/-- Free value: W_FIN outside a FRAME (R18, U5). -/
opaque freeFlag : Nat → Bool

end Config

end Sys2Proof
end

