-- ==== Sys2Proof/Syntax.lean ====
section
/-! DEFINITION. The instruction syntax: one constructor for each row of spec/opcode_table.json. The first five rows
are read from STREAM (R50); the last four are the byte formats the encoder writes to BUS (R58), which the block
never decodes (R61, R62). -/

namespace Sys2Proof

inductive Instr where
  /-- PSGW, `0x50 dd` (R90): write the raw byte `dd` to BUS. -/
  | psgw (dd : Byte)
  /-- WAITN, `0x61 n_lo n_hi` (R92): wait `n` samples. -/
  | waitN (n : BitVec 16)
  /-- WAIT1, `0x62` (R94): wait one frame. -/
  | wait1
  /-- END, `0x66` (R96): end of data, or jump to the loop point. -/
  | endData
  /-- ILLEGAL (R98): any other first byte. -/
  | illegal (b : Byte)
  /-- P-TONE-LATCH, `1cc0rrrr` (R58, R110): first byte of a tone write. -/
  | pToneLatch (ch : BitVec 2) (lo : BitVec 4)
  /-- P-TONE-DATA, `00rrrrrr` (R58, R110): second byte of a tone write. -/
  | pToneData (hi : BitVec 6)
  /-- P-VOL, `1cc1aaaa` (R58, R117): attenuation of a channel. -/
  | pVol (ch : BitVec 2) (att : BitVec 4)
  /-- P-NOISE, `11110mss` (R58, R119): noise mode and shift rate. -/
  | pNoise (mode : BitVec 1) (rate : BitVec 2)
deriving DecidableEq, Repr

namespace Instr

/-- The rows whose note says "Space: STREAM" (R62): what a Turn can execute. -/
def inStream : Instr → Bool
  | .psgw _ => true
  | .waitN _ => true
  | .wait1 => true
  | .endData => true
  | .illegal _ => true
  | .pToneLatch _ _ => false
  | .pToneData _ => false
  | .pVol _ _ => false
  | .pNoise _ _ => false

/-- How many bytes an instruction occupies: R52 for the four commands, one byte for the PSG output formats (R58).
For an unknown opcode "no length is defined" (R52): it consumes no byte. -/
def byteLength : Instr → Nat
  | .psgw _ => 2
  | .waitN _ => 3
  | .wait1 => 1
  | .endData => 1
  | .illegal _ => 0
  | .pToneLatch _ _ => 1
  | .pToneData _ => 1
  | .pVol _ _ => 1
  | .pNoise _ _ => 1

end Instr

/-- The four byte formats of R58. -/
inductive PsgFormat where
  | toneLatch
  | toneData
  | vol
  | noise
deriving DecidableEq, Repr

end Sys2Proof
end

