-- ==== Sys2Proof/WellFormed.lean ====
section
/-! DEFINITION. Which terms of `Instr` stand for an instruction: an ILLEGAL byte is none of the four opcodes (R98),
and a tone latch names channel 0, 1 or 2 (R59, R110). Every other field is as wide as its encoding. -/

namespace Sys2Proof

/-- The four first bytes R50 recognises. -/
def isOpcode (b : Byte) : Bool := b == 0x50#8 || b == 0x61#8 || b == 0x62#8 || b == 0x66#8

def Instr.wellFormed : Instr → Bool
  | .psgw _ => true
  | .waitN _ => true
  | .wait1 => true
  | .endData => true
  | .illegal b => !isOpcode b
  | .pToneLatch ch _ => ch != 3#2
  | .pToneData _ => true
  | .pVol _ _ => true
  | .pNoise _ _ => true

end Sys2Proof
end

