-- ==== Sys2Proof/Decode.lean ====
section
/-! DEFINITION. The decoder of STREAM (R50 to R56, R62), written from the four V rows of the opcode table; the encoder;
and the reading of one PSG byte in a given format (R58, R124), which the block itself never does. -/

namespace Sys2Proof

/-- `le16` of R7. -/
def le16 (b0 b1 : Byte) : BitVec 16 := BitVec.ofNat 16 (b0.toNat + 256 * b1.toNat)

/-- `le32` of R7, as a number. -/
def le32 (b0 b1 b2 b3 : Byte) : Nat := b0.toNat + 2 ^ 8 * b1.toNat + 2 ^ 16 * b2.toNat + 2 ^ 24 * b3.toNat

/-- Why no instruction is read: the opcode byte, or an operand byte of a known opcode, is missing (R133). -/
inductive DecodeError where
  | opcodeMissing
  | operandMissing
deriving DecidableEq, Repr

/-- The instruction at the head of the bytes, with the bytes after it (R50, R51, R54). The length is a function of the
first byte alone (R52); an unknown first byte is read as ILLEGAL and consumes nothing ("does not attempt to skip"). -/
def decode : List Byte → Except DecodeError (Instr × List Byte)
  | [] => .error .opcodeMissing
  | b :: rest =>
    if b = 0x50#8 then
      match rest with
      | dd :: rest' => .ok (.psgw dd, rest')
      | [] => .error .operandMissing
    else if b = 0x61#8 then
      match rest with
      | lo :: hi :: rest' => .ok (.waitN (le16 lo hi), rest')
      | _ => .error .operandMissing
    else if b = 0x62#8 then .ok (.wait1, rest)
    else if b = 0x66#8 then .ok (.endData, rest)
    else .ok (.illegal b, b :: rest)

/-! The PSG byte formats (R58), bit 7 leftmost, by the pseudocode of R110, R117 and R119. -/

/-- P-TONE-LATCH: `0x80 | (ch << 5) | (reg & 0xF)`. -/
def toneLatchByte (ch : BitVec 2) (lo : BitVec 4) : Byte := 0x80#8 ||| (ch.setWidth 8 <<< 5) ||| lo.setWidth 8

/-- P-TONE-DATA: `reg >> 4`, bits 7 and 6 zero. -/
def toneDataByte (hi : BitVec 6) : Byte := hi.setWidth 8

/-- P-VOL: `0x90 | (ch << 5) | att`. -/
def volByte (ch : BitVec 2) (att : BitVec 4) : Byte := 0x90#8 ||| (ch.setWidth 8 <<< 5) ||| att.setWidth 8

/-- P-NOISE: `0xE0 | (NOISE_BIT4 << 4) | (mode << 2) | rate`. -/
def noiseByte (bit4 : Bool) (mode : BitVec 1) (rate : BitVec 2) : Byte :=
  0xE0#8 ||| (if bit4 then 0x10#8 else 0#8) ||| (mode.setWidth 8 <<< 2) ||| rate.setWidth 8

/-- The bytes of an instruction (R51, R58). Only P-NOISE depends on a parameter (R60). -/
def encode (p : Params) : Instr → List Byte
  | .psgw dd => [0x50#8, dd]
  | .waitN n => [0x61#8, n.setWidth 8, (n >>> 8).setWidth 8]
  | .wait1 => [0x62#8]
  | .endData => [0x66#8]
  | .illegal b => [b]
  | .pToneLatch ch lo => [toneLatchByte ch lo]
  | .pToneData hi => [toneDataByte hi]
  | .pVol ch att => [volByte ch att]
  | .pNoise mode rate => [noiseByte p.noiseBit4 mode rate]

/-- The format a PSG output row has (none for a STREAM row). -/
def Instr.psgFormat? : Instr → Option PsgFormat
  | .psgw _ => none
  | .waitN _ => none
  | .wait1 => none
  | .endData => none
  | .illegal _ => none
  | .pToneLatch _ _ => some .toneLatch
  | .pToneData _ => some .toneData
  | .pVol _ _ => some .vol
  | .pNoise _ _ => some .noise

/-- The fields of a PSG byte read in a given format ("manually decoding the bit fields", R124). A byte that does not
have the format's fixed bits, or a latch byte for channel 3 (R59), is none of that format. The format must be given:
P-NOISE and P-VOL overlap (R60). -/
def decodePsg (p : Params) (fmt : PsgFormat) (b : Byte) : Option Instr :=
  match fmt with
  | .toneLatch =>
    if b &&& 0x90#8 = 0x80#8 ∧ b.extractLsb' 5 2 ≠ 3#2 then some (.pToneLatch (b.extractLsb' 5 2) (b.extractLsb' 0 4))
    else none
  | .toneData => if b &&& 0xC0#8 = 0#8 then some (.pToneData (b.extractLsb' 0 6)) else none
  | .vol => if b &&& 0x90#8 = 0x90#8 then some (.pVol (b.extractLsb' 5 2) (b.extractLsb' 0 4)) else none
  | .noise =>
    if b &&& 0xF8#8 = noiseByte p.noiseBit4 0#1 0#2 then some (.pNoise (b.extractLsb' 2 1) (b.extractLsb' 0 2)) else none

/-- The longest instruction is 3 bytes (R51). -/
def longestInstr : Nat := 3

/-- The first bytes, in STREAM order, of an instruction whose bits the opcode table numbers from bit 0 of its first
byte; every bit above `nbits` is 0. -/
def tableBytes (nbits w : Nat) : List Byte :=
  let v := w % 2 ^ nbits
  [BitVec.ofNat 8 v, BitVec.ofNat 8 (v / 2 ^ 8), BitVec.ofNat 8 (v / 2 ^ 16)]

/-- What the STREAM decoder reads from such a word. A word of a PSG output row is read like any other STREAM byte
(R61, R62), as ILLEGAL (log entry 12). -/
def decodeTableWord (nbits w : Nat) : Option Instr :=
  match decode (tableBytes nbits w) with
  | .ok (i, _) => some i
  | .error _ => none

end Sys2Proof
end

