-- ==== Sys2Proof/Machine/Float64.lean ====
section
/-! DEFINITION. The binary64 arithmetic of R111 on non-negative values: exact results, rounded to nearest even. -/

namespace Sys2Proof.Machine

/-- A non-negative binary64 value: `m * 2^e`, or plus infinity. -/
inductive NonNeg64 where
  | fin (m : Nat) (e : Int)
  | inf
deriving DecidableEq, Repr

/-- The numerator of `m * 2^e` as a fraction of naturals. -/
def numOf (m : Nat) (e : Int) : Nat := m * 2 ^ e.toNat

/-- The denominator of `m * 2^e` as a fraction of naturals. -/
def denOf (e : Int) : Nat := 2 ^ (-e).toNat

def signOf (f : BitVec 64) : Bool := f.msb
def exponentField (f : BitVec 64) : Nat := (f.extractLsb' 52 11).toNat
def fractionField (f : BitVec 64) : Nat := (f.extractLsb' 0 52).toNat

/-- Finite and greater than zero: the domain of the frequency (R110, D16). -/
def legalFrequency (f : BitVec 64) : Bool :=
  !signOf f && exponentField f != 2047 && !(exponentField f == 0 && fractionField f == 0)

/-- The significand of a finite pattern, the hidden bit included; subnormals are legal (R125). -/
def significandOf (f : BitVec 64) : Nat :=
  if exponentField f = 0 then fractionField f else 2 ^ 52 + fractionField f

/-- The exponent of a finite pattern's last place. -/
def exponentOf (f : BitVec 64) : Int := if exponentField f = 0 then -1074 else (exponentField f : Int) - 1075

/-- The value of a finite non-negative pattern. -/
def valueOf (f : BitVec 64) : NonNeg64 := .fin (significandOf f) (exponentOf f)

/-- The quotient `n / d` rounded to the nearest natural, ties to even. -/
def roundHalfEven (n d : Nat) : Nat :=
  let q := n / d
  let r := n % d
  if d < 2 * r ∨ (2 * r = d ∧ q % 2 = 1) then q + 1 else q

/-- `floor(log2(n / d))` for positive `n`, `d`. -/
def floorLog2 (n d : Nat) : Int :=
  let l : Int := (n.log2 : Int) - (d.log2 : Int)
  if d * 2 ^ l.toNat ≤ n * 2 ^ (-l).toNat then l else l - 1

/-- The exponent of the last place a binary64 has for the value `n / d`: 53 significant bits, not below the subnormal
spacing. -/
def lastPlace (n d : Nat) : Int := max (floorLog2 n d - 52) (-1074)

/-- The binary64 nearest to `n / d`, ties to even, overflowing to plus infinity. -/
def roundToBinary64 (n d : Nat) : NonNeg64 :=
  if n = 0 then .fin 0 0
  else
    let k := lastPlace n d
    let m := roundHalfEven (n * 2 ^ (-k).toNat) (d * 2 ^ k.toNat)
    if 2 ^ 1024 * denOf k ≤ numOf m k then .inf else .fin m k

/-- A product by a natural constant. -/
def NonNeg64.mulNat (a : NonNeg64) (c : Nat) : NonNeg64 :=
  match a with
  | .fin m e => roundToBinary64 (numOf m e * c) (denOf e)
  | .inf => .inf

/-- A natural constant divided by a value; division by zero gives plus infinity, by plus infinity zero. -/
def NonNeg64.natDiv (c : Nat) (a : NonNeg64) : NonNeg64 :=
  match a with
  | .fin m e => if m = 0 then .inf else roundToBinary64 (c * denOf e) (numOf m e)
  | .inf => .fin 0 0

/-- `floor`, exact; none for plus infinity. -/
def NonNeg64.floor : NonNeg64 → Option Nat
  | .fin m e => some (numOf m e / denOf e)
  | .inf => none

end Sys2Proof.Machine
end

