-- ==== Sys2Proof/Machine/State.lean ====
section
/-! DEFINITION. The state of the block (spec/10_state.md), the results of its operations (R130), the host's requests
(R150), and the faults and refusals of the model. -/

namespace Sys2Proof.Machine

/-- The STREAM space: a list of cells in the canonical form of `Memory.wf` (R30, R32). -/
abbrev Memory := List Host.Cell

/-- PHASE of the small-step machine (R77). -/
inductive Phase where
  | idle
  | decode
deriving DecidableEq, Repr

/-- The eight error kinds with their payloads (R130). -/
inductive ErrorKind where
  | invalidHeader
  | unsupportedVersion
  | unsupportedClock
  | truncatedFile
  | endOfSong
  | unknownOpcode (offset : Nat) (byte : Byte)
  | unexpectedEndOfStream (offset : Nat)
  | outOfRange
deriving DecidableEq, Repr

/-- The classes of errors a caller must be able to tell apart (R139). -/
inductive ErrorClass where
  | malformedFile
  | protocol
  | argumentRange
deriving DecidableEq, Repr

/-- What the status read returns (R23, R150). -/
structure Status where
  offset : Nat
  ticks : Ticks
  finished : Bool
  len : Nat
  loopValid : Bool
  loopOffset : Nat
deriving DecidableEq, Repr

/-- The result the host receives when an operation ends (R42, R140). -/
inductive OpResult where
  | ok
  | status (v : Status)
  | error (e : ErrorKind)
deriving DecidableEq, Repr

/-- The operations of R150, without their arguments. -/
inductive OpKind where
  | init
  | reset
  | load
  | frame
  | setFreq
  | setVol
  | setNoise
  | readStatus
deriving DecidableEq, Repr

/-- A completed operation: which, its result, and how long the BUS trace was when it ended, so that the bytes of the
trace can be tied to the operation that wrote them (R42). -/
structure Completion where
  op : OpKind
  result : OpResult
  busLen : Nat
deriving DecidableEq, Repr

/-- The byte source of a LOAD (R163): the bytes it would give, front to back, and whether its first or its second
`read_exact` ends in an IoError whatever bytes are left (R148). -/
structure ByteSource where
  bytes : List Byte
  headerIoError : Bool := false
  payloadIoError : Bool := false
deriving DecidableEq, Repr

/-- A host request (R150). Integer arguments are mathematical integers (D17); the frequency is a binary64 bit
pattern (R110). -/
inductive HostOp where
  | init
  | reset
  | load (src : ByteSource)
  | frame
  | setFreq (ch : Int) (f : BitVec 64)
  | setVol (ch vol : Int)
  | setNoise (mode rate : Int)
  | readStatus
deriving DecidableEq, Repr

/-- The whole state. The order is that of INVENTORY.md's '## State'. -/
structure State where
  /-- OFFSET, the program counter (R11). -/
  offset : Nat
  /-- TICKS (R13). -/
  ticks : Ticks
  /-- FINISHED (R12). -/
  finished : Bool
  /-- BUF (R30, R33). -/
  buf : Memory
  /-- LEN (R14). -/
  len : Nat
  /-- LOOP_VALID (R15). -/
  loopValid : Bool
  /-- LOOP_OFFSET (R15). -/
  loopOffset : Nat
  /-- PHASE (R77). -/
  phase : Phase
  /-- W_OFFSET (R18). -/
  wOffset : Nat
  /-- W_TICKS (R18). -/
  wTicks : Ticks
  /-- W_FIN (R18). -/
  wFin : Bool
  /-- The BUS trace, oldest byte first (R36, R42). -/
  bus : List Byte
  /-- The results of the completed operations, oldest first (R42). -/
  results : List Completion
  /-- What the host is still going to request, first request first (R5). -/
  requests : List HostOp
  /-- The parameters of R6. -/
  params : Params
  /-- Which free value comes next. -/
  draws : Nat
deriving DecidableEq, Repr

/-- The machine right after power-on: INIT has been done (R160, R22), nothing has been requested, nothing is loaded.
LOOP_OFFSET and the working copies have no value in the spec: zero (log entries 4 and 6). -/
def State.reset : State where
  offset := 0
  ticks := 0#32
  finished := false
  buf := []
  len := 0
  loopValid := false
  loopOffset := 0
  phase := .idle
  wOffset := 0
  wTicks := 0#32
  wFin := false
  bus := Config.resetSeq
  results := []
  requests := []
  params := Params.documented
  draws := 0

/-- The machine stops. -/
inductive Fault where
  /-- FRAME's decrement of TICKS = -2^31 (R13, R72, D3; U1: "fault (or refuse): do not wrap, do not saturate"). Raised by
  the start of a FRAME. Safe: the model stops where an implementation would go on. -/
  | ticksUnderflow
  /-- A wait that takes W_TICKS past 2^31 - 1 (R13: "not defined by the source; see U1"). Raised by WAITN and WAIT1;
  no run reaches it (R93). Safe. -/
  | ticksOverflow
deriving DecidableEq, Repr

/-- No meaning is given. -/
inductive Refusal where
  /-- An arm of exec without a meaning. Raised by no arm. Safe. -/
  | notModelled (mnemonic : String)
  /-- LOAD with `eof_offset < 60` (R168(a), U2). Raised by LOAD. Safe. -/
  | loadLengthNegative
  /-- LOAD with `LEN >= 2^AW` (R168(b), U4). Raised by LOAD. Safe. -/
  | loadLengthTooWide
  /-- LOAD with `0 < loop_value < 0x24` (R168(c), U3). Raised by LOAD. Safe. -/
  | loadLoopNegative
  /-- LOAD with a loop index above LEN (R168(d), U4). Raised by LOAD. Safe. -/
  | loadLoopBeyondEnd
deriving DecidableEq, Repr

/-- The three ways a step ends. -/
abbrev Result := Host.Outcome State Fault Refusal

end Sys2Proof.Machine
end

