-- ==== Sys2Proof/Machine/Encoder.lean ====
section
/-! DEFINITION. The PSG register encoder (spec/42_psg_encoder.md): pure functions from arguments to PSG output rows,
and from those to bytes. It has no state (R21). -/

namespace Sys2Proof.Machine

/-- `floor(q)` of R110 in the arithmetic of FREQ_ARITH, for a legal frequency; none for plus infinity. In binary64 the
operations are in the written order, `t1 = f * 2`, `t2 = t1 * 16`, `q = 3579545.0 / t2` (R111). -/
def floorQuotient (arith : FreqArith) (f : BitVec 64) : Option Nat :=
  match arith with
  | .binary64 => (((valueOf f).mulNat 2).mulNat 16).natDiv Config.psgClock |>.floor
  | .exact =>
    some (Config.psgClock * denOf (exponentOf f) / (Config.toneDivider * numOf (significandOf f) (exponentOf f)))

/-- `reg`: the floor, clamped at 1021 (R112); plus infinity clamps too. -/
def toneRegister (arith : FreqArith) (f : BitVec 64) : Nat :=
  match floorQuotient arith f with
  | some q => min q Config.regMax
  | none => Config.regMax

/-- The tone write of a channel and a register value: latch row, then data row (R58, R116). -/
def toneRows (ch reg : Nat) : List Instr :=
  [.pToneLatch (BitVec.ofNat 2 ch) (BitVec.ofNat 4 (reg % 16)), .pToneData (BitVec.ofNat 6 (reg / 16))]

/-- The rows of `encode_frequency` (R110). -/
def frequencyRows (arith : FreqArith) (ch : Int) (f : BitVec 64) : Except ErrorKind (List Instr) :=
  if ¬(0 ≤ ch ∧ ch ≤ 2) then .error .outOfRange
  else if legalFrequency f = false then .error .outOfRange
  else .ok (toneRows ch.toNat (toneRegister arith f))

/-- The row of `encode_volume` (R117): the attenuation is `15 - vol`. -/
def volumeRows (ch vol : Int) : Except ErrorKind (List Instr) :=
  if ¬(0 ≤ ch ∧ ch ≤ 3) then .error .outOfRange
  else if ¬(0 ≤ vol ∧ vol ≤ 15) then .error .outOfRange
  else .ok [.pVol (BitVec.ofNat 2 ch.toNat) (BitVec.ofNat 4 (15 - vol.toNat))]

/-- The row of `encode_noise` (R119); `rate` is checked like the others (C6). -/
def noiseRows (mode rate : Int) : Except ErrorKind (List Instr) :=
  if ¬(0 ≤ mode ∧ mode ≤ 1) then .error .outOfRange
  else if ¬(0 ≤ rate ∧ rate ≤ 3) then .error .outOfRange
  else .ok [.pNoise (BitVec.ofNat 1 mode.toNat) (BitVec.ofNat 2 rate.toNat)]

/-- The bytes of rows. -/
def rowBytes (p : Params) (rows : Except ErrorKind (List Instr)) : Except ErrorKind (List Byte) :=
  match rows with
  | .ok is => .ok (is.flatMap (encode p))
  | .error e => .error e

/-- `enc_frequency(ch, f)` (R110). -/
def encFrequency (p : Params) (ch : Int) (f : BitVec 64) : Except ErrorKind (List Byte) :=
  rowBytes p (frequencyRows p.freqArith ch f)

/-- `enc_volume(ch, vol)` (R117). -/
def encVolume (p : Params) (ch vol : Int) : Except ErrorKind (List Byte) := rowBytes p (volumeRows ch vol)

/-- `enc_noise(mode, rate)` (R119). -/
def encNoise (p : Params) (mode rate : Int) : Except ErrorKind (List Byte) := rowBytes p (noiseRows mode rate)

/-- `reset_sequence()` (R122). -/
def resetSequence : List Byte := Config.resetSeq

end Sys2Proof.Machine
end

