-- ==== Sys2Proof/Machine/Flags.lean ====
section
/-! DEFINITION. The signed arithmetic of TICKS (R13, R99(c)) and the tests and the flag computed from it. The block has
one flag, FINISHED (R12), and no condition codes. -/

namespace Sys2Proof.Machine

/-- The exact result of tick arithmetic as a 32-bit two's complement value; none where it does not fit (R13: not
defined by the source). -/
def narrowTicks (v : Int) : Option Ticks :=
  if -2 ^ 31 ≤ v ∧ v < 2 ^ 31 then some (BitVec.ofInt 32 v) else none

/-- The tick test of R72: "still > 0 after decrement", a signed comparison (R99(d)). -/
def stillWaiting (t : Ticks) : Bool := decide (0 < t.toInt)

/-- Whole frames of a sample count: `n div 735` (R92, R99(b)). -/
def framesOf (n : BitVec 16) : Nat := n.toNat / Config.samplesPerFrame

/-- `W_FIN <- 1` (R96), the only flag write of any command. -/
def setFin (s : State) : State := { s with wFin := true }

end Sys2Proof.Machine
end

