-- ==== Sys2Proof/Machine/Memory.lean ====
section
/-! DEFINITION. STREAM as a list of cells in one canonical form: indices strictly rising, no cell equal to what an
unlisted index reads as. LOAD installs it as a whole (R40); no command writes it. -/

namespace Sys2Proof.Machine

/-- What an unlisted index reads as (DESIGN CHOICE, log entry 7). Every index below LEN holds a byte of the payload
(R33) and no index at or above LEN is ever read (R31), so this only says which payload bytes need not be listed. -/
def Memory.unlisted : Byte := 0x00#8

/-- The byte at an index. -/
def Memory.read (m : Memory) (a : Nat) : Byte :=
  match m with
  | [] => Memory.unlisted
  | (k, b) :: rest => if k = a then b else Memory.read rest a

/-- Every index of the list is at or above `lo` and rising, and no listed byte is the unlisted one. -/
def Memory.wfFrom (lo : Nat) : Memory → Bool
  | [] => true
  | (k, b) :: rest => decide (lo ≤ k) && (b != Memory.unlisted) && Memory.wfFrom (k + 1) rest

/-- The canonical form. -/
def Memory.wf (m : Memory) : Bool := Memory.wfFrom 0 m

/-- A cell in front of a list, left out if it holds the unlisted byte. -/
def Memory.cons (a : Nat) (b : Byte) (m : Memory) : Memory := if b = Memory.unlisted then m else (a, b) :: m

/-- Store one byte, keeping the canonical form. -/
def Memory.write (m : Memory) (a : Nat) (b : Byte) : Memory :=
  match m with
  | [] => Memory.cons a b []
  | (k, c) :: rest =>
    if a < k then Memory.cons a b ((k, c) :: rest)
    else if a = k then Memory.cons a b rest
    else (k, c) :: Memory.write rest a b

/-- Store consecutive bytes from an index on. -/
def Memory.writeAll (m : Memory) (a : Nat) : List Byte → Memory
  | [] => m
  | b :: bs => Memory.writeAll (m.write a b) (a + 1) bs

/-- The memory whose bytes from index `a` on are the list (R33, R169). -/
def Memory.ofBytes (a : Nat) : List Byte → Memory
  | [] => []
  | b :: bs => Memory.cons a b (Memory.ofBytes (a + 1) bs)

end Sys2Proof.Machine
end

