-- ==== Sys2Proof/Machine/Operands.lean ====
section
/-! DEFINITION. How a command's bytes are fetched and its operands assembled (R31, R53, R54, R74, R101). -/

namespace Sys2Proof.Machine

/-- `n` consecutive bytes from an index. -/
def Memory.readBytes (m : Memory) (a : Nat) : Nat → List Byte
  | 0 => []
  | n + 1 => m.read a :: Memory.readBytes m (a + 1) n

/-- `MemRead(addr, n)` on STREAM, defined only when `addr + n <= LEN` (R31). -/
def memRead (s : State) (addr n : Nat) : Option (List Byte) :=
  if addr + n ≤ s.len then some (s.buf.readBytes addr n) else none

/-- The bytes a Turn may read at W_OFFSET: as many as there are below LEN, up to the longest command. -/
def fetchBytes (s : State) : List Byte := (memRead s s.wOffset (min longestInstr (s.len - s.wOffset))).getD []

/-- A command of `n` bytes at W_OFFSET lies wholly below LEN, tested without wrap (R99(a)). -/
def bytesPresent (s : State) (n : Nat) : Bool := decide (s.wOffset + n ≤ s.len)

end Sys2Proof.Machine
end

