-- ==== Sys2Proof/Machine/Ops.lean ====
section
/-! DEFINITION. The shared operations: BUS writes, the end of an operation, raising an error (the block's exceptions,
R140), the recovery from one (R142), the commit of a FRAME. -/

namespace Sys2Proof.Machine

/-- `BusWrite(b)` (R36): one byte to the chip bus writer, complete when made, appended to the trace. -/
def busWrite (s : State) (b : Byte) : State := { s with bus := s.bus ++ [b] }

/-- Several `BusWrite`s, in order (R38). -/
def busWriteAll (s : State) : List Byte → State
  | [] => s
  | b :: bs => busWriteAll (busWrite s b) bs

/-- The host receives an operation's result (R42, R140). -/
def report (op : OpKind) (r : OpResult) (s : State) : State :=
  { s with results := s.results ++ [{ op := op, result := r, busLen := s.bus.length }] }

/-- The end of a FRAME: PHASE is IDLE and the working copies do not survive (R18, R77). What they hold outside a FRAME
is any value (U5): a free value within their widths (log entry 6). -/
def leaveFrame (s : State) : State :=
  { s with
    phase := .idle
    wOffset := Config.freeOffset s.draws % 2 ^ s.params.aw
    wTicks := Config.freeTicks s.draws
    wFin := Config.freeFlag s.draws
    draws := s.draws + 1 }

/-- `raise K(info)` (R140): the operation ends, the working copies are discarded, no register is written, bytes already
given to BUS stay, the host receives the error; no vector, no handler, no saved pc, no mode. -/
def raise (op : OpKind) (e : ErrorKind) (s : State) : State := report op (.error e) (leaveFrame s)

/-- `raise UnexpectedEndOfStream(offset = W_OFFSET)` (R133, D6). -/
def raiseEndOfStream (s : State) : State := raise .frame (.unexpectedEndOfStream s.wOffset) s

/-- The commit that ends a successful FRAME (R78): the three registers in one update. -/
def commit (s : State) : State :=
  report .frame .ok
    (leaveFrame { s with offset := s.wOffset, ticks := s.wTicks, finished := s.wFin })

/-- Zero PlaybackState and write the reset sequence (R161, R122): the only recovery primitive (R142). -/
def resetPlayback (s : State) : State :=
  { busWriteAll s Config.resetSeq with offset := 0, ticks := 0#32, finished := false }

/-- No loop: LOOP_VALID is 0 and LOOP_OFFSET is unspecified (R15, R160, R171, U5): a free value of AW bits. -/
def clearLoop (s : State) : State :=
  { s with
    loopValid := false
    loopOffset := Config.freeLoopOffset s.draws % 2 ^ s.params.aw
    draws := s.draws + 1 }

/-- `W_TICKS <- v` for the exact value `v`, then go on; a fault where it leaves 32 bits (R13). -/
def withWTicks (s : State) (v : Int) (k : State → Result) : Result :=
  match narrowTicks v with
  | some t => k { s with wTicks := t }
  | none => .fault .ticksOverflow

/-- The number R130 gives an error (D9); success is 0. -/
def ErrorKind.code : ErrorKind → Nat
  | .invalidHeader => 1
  | .unsupportedVersion => 2
  | .unsupportedClock => 3
  | .truncatedFile => 4
  | .endOfSong => 5
  | .unknownOpcode _ _ => 6
  | .unexpectedEndOfStream _ => 7
  | .outOfRange => 8

/-- The class of an error (R139). -/
def ErrorKind.errorClass : ErrorKind → ErrorClass
  | .invalidHeader => .malformedFile
  | .unsupportedVersion => .malformedFile
  | .unsupportedClock => .malformedFile
  | .truncatedFile => .malformedFile
  | .endOfSong => .protocol
  | .unknownOpcode _ _ => .protocol
  | .unexpectedEndOfStream _ => .protocol
  | .outOfRange => .argumentRange

/-- The number of a result: 0 for success (R130). -/
def OpResult.code : OpResult → Nat
  | .ok => 0
  | .status _ => 0
  | .error e => e.code

end Sys2Proof.Machine
end

