-- ==== Sys2Proof/Machine/PsgOutput.lean ====
section
/-! DEFINITION. The meanings of the PSG output rows (R58): the encoder writes the byte to BUS (R116, R118, R120) and
reads and writes no register of the block (R21). -/

namespace Sys2Proof.Machine

/-- P-TONE-LATCH (R58, R116). -/
def execPToneLatch (ch : BitVec 2) (lo : BitVec 4) (s : State) : Result := .next (busWrite s (toneLatchByte ch lo))

/-- P-TONE-DATA (R58, R116). -/
def execPToneData (hi : BitVec 6) (s : State) : Result := .next (busWrite s (toneDataByte hi))

/-- P-VOL (R58, R118). -/
def execPVol (ch : BitVec 2) (att : BitVec 4) (s : State) : Result := .next (busWrite s (volByte ch att))

/-- P-NOISE (R58, R60, R120). -/
def execPNoise (mode : BitVec 1) (rate : BitVec 2) (s : State) : Result :=
  .next (busWrite s (noiseByte s.params.noiseBit4 mode rate))

end Sys2Proof.Machine
end

