-- ==== Sys2Proof/Machine/VgmCommands.lean ====
section
/-! DEFINITION. The meanings of the STREAM rows (spec/41_vgm_commands.md). Each is the command's rule at index
`i = W_OFFSET`, on the working copies; "continue" leaves PHASE at DECODE, "stop" is the commit (R75, R77, R78). -/

namespace Sys2Proof.Machine

/-- PSGW (R90). -/
def execPsgw (dd : Byte) (s : State) : Result :=
  if bytesPresent s 2 then .next { busWrite s dd with wOffset := s.wOffset + 2 }
  else .next (raiseEndOfStream s)

/-- WAITN (R92). -/
def execWaitN (n : BitVec 16) (s : State) : Result :=
  if bytesPresent s 3 then
    withWTicks s (s.wTicks.toInt + framesOf n) fun s => .next (commit { s with wOffset := s.wOffset + 3 })
  else .next (raiseEndOfStream s)

/-- WAIT1 (R94). -/
def execWait1 (s : State) : Result :=
  withWTicks s (s.wTicks.toInt + 1) fun s => .next (commit { s with wOffset := s.wOffset + 1 })

/-- END (R96): the loop jump is transparent; without a loop the song is finished, W_OFFSET staying at the END (D7). -/
def execEndData (s : State) : Result :=
  if s.loopValid then .next { s with wOffset := s.loopOffset }
  else .next (commit (setFin s))

/-- ILLEGAL (R98): `raise UnknownOpcode(offset = i, byte = b)`. -/
def execIllegal (b : Byte) (s : State) : Result := .next (raise .frame (.unknownOpcode s.wOffset b) s)

end Sys2Proof.Machine
end

