-- ==== Sys2Proof/Machine/Dispatch.lean ====
section
/-! DEFINITION. One arm per row of spec/opcode_table.json. -/

namespace Sys2Proof.Machine

def exec (i : Instr) (s : State) : Host.Outcome State Fault Refusal :=
  match i with
  | .psgw dd => Sys2Proof.Machine.execPsgw dd s
  | .waitN n => Sys2Proof.Machine.execWaitN n s
  | .wait1 => Sys2Proof.Machine.execWait1 s
  | .endData => Sys2Proof.Machine.execEndData s
  | .illegal b => Sys2Proof.Machine.execIllegal b s
  -- the byte formats of the encoder, never decoded from STREAM (R61, R62); SET_FREQ, SET_VOL and SET_NOISE execute them
  | .pToneLatch ch lo => Sys2Proof.Machine.execPToneLatch ch lo s
  | .pToneData hi => Sys2Proof.Machine.execPToneData hi s
  | .pVol ch att => Sys2Proof.Machine.execPVol ch att s
  | .pNoise mode rate => Sys2Proof.Machine.execPNoise mode rate s

end Sys2Proof.Machine
end

