-- ==== Sys2Proof/Machine/Frame.lean ====
section
/-! DEFINITION. The FRAME operation as a small-step machine (R77): Start (R71 to R73) and Turn (R74). -/

namespace Sys2Proof.Machine

/-- `W_OFFSET <- OFFSET`, `W_FIN <- 0`, `W_TICKS` as computed, PHASE is DECODE (R73, R77). -/
def enterDecode (t : Ticks) (s : State) : State :=
  { s with phase := .decode, wOffset := s.offset, wTicks := t, wFin := false }

/-- The early return of the tick test (R72): only TICKS is written, and the FRAME ends with success. -/
def earlyReturn (t : Ticks) (s : State) : State := report .frame .ok (leaveFrame { s with ticks := t })

/-- Start: the finished test (R71), the tick test (R72), entry to the decode phase (R73). The one value of TICKS whose
decrement is not defined is a fault (R13, U1). -/
def startFrame (s : State) : Result :=
  if s.finished then .next (raise .frame .endOfSong s)
  else
    match narrowTicks (s.ticks.toInt - 1) with
    | none => .fault .ticksUnderflow
    | some t => if stillWaiting t then .next (earlyReturn t s) else .next (enterDecode t s)

/-- One Turn of the decode loop (R74): decode at W_OFFSET and execute, or raise UnexpectedEndOfStream where the opcode
byte or an operand byte is missing (R133). -/
def turn (s : State) : Result :=
  match decode (fetchBytes s) with
  | .ok (i, _) => exec i s
  | .error _ => .next (raiseEndOfStream s)

/-- Where the next Turn fetches. -/
def fetchOffset (s : State) : Nat :=
  match s.phase with
  | .idle => s.offset
  | .decode => s.wOffset

/-- A FRAME that is decoding, at the same place: for an idle machine the entry of R73 with the decremented TICKS. -/
def intoDecode (s : State) : State :=
  match s.phase with
  | .idle => enterDecode (s.ticks - 1#32) s
  | .decode => s

/-- An instruction word placed where the next Turn fetches, LEN reaching past its longest form. -/
def placeWord (s : State) (nbits w : Nat) : State :=
  { intoDecode s with
    buf := s.buf.writeAll (fetchOffset s) (tableBytes nbits w)
    len := max s.len (fetchOffset s + longestInstr) }

end Sys2Proof.Machine
end

