-- ==== Sys2Proof/Machine/Loader.lean ====
section
/-! DEFINITION. LOAD (R162 to R171): the header, the payload, and the installation of a song. -/

namespace Sys2Proof.Machine

/-- `read_exact(n)` (R163): the next `n` bytes and the rest, or a failure (short read or IoError). -/
def readExact (n : Nat) (ioError : Bool) (bs : List Byte) : Option (List Byte × List Byte) :=
  if ioError = true ∨ bs.length < n then none else some (bs.take n, bs.drop n)

/-- The little-endian 32-bit field at a header offset (R164). -/
def le32At (h : List Byte) (k : Nat) : Nat := le32 (h.getD k 0) (h.getD (k + 1) 0) (h.getD (k + 2) 0) (h.getD (k + 3) 0)

/-- The first header test that fails, in the order magic, version, clock (R164, R143). -/
def headerError (h : List Byte) : Option ErrorKind :=
  if h.take 4 ≠ Config.magic then some .invalidHeader
  else if le32At h 0x08 ≠ Config.vgmVersion then some .unsupportedVersion
  else if le32At h 0x0C ≠ Config.psgClock then some .unsupportedClock
  else none

/-- `eof_offset` (R164). -/
def eofOffset (h : List Byte) : Nat := le32At h 0x04

/-- `loop_value` (R164). -/
def loopValue (h : List Byte) : Nat := le32At h 0x1C

/-- The payload length `eof_offset + 4 - 64` (R166), for `eof_offset >= 60`. -/
def payloadLength (h : List Byte) : Nat := eofOffset h + 4 - Config.headerLen

/-- The loop index `loop_value + 0x1C - 0x40` (R167), for `loop_value >= 0x24`. -/
def loopIndex (h : List Byte) : Nat := loopValue h + 0x1C - 0x40

/-- The precondition of R168 a header breaks, if any. The spec gives such a LOAD no meaning: "A model refuses it". -/
def headerRefusal (aw : Nat) (h : List Byte) : Option Refusal :=
  if eofOffset h < 60 then some .loadLengthNegative
  else if 2 ^ aw ≤ payloadLength h then some .loadLengthTooWide
  else if loopValue h = 0 then none
  else if loopValue h < 0x24 then some .loadLoopNegative
  else if payloadLength h < loopIndex h then some .loadLoopBeyondEnd
  else none

/-- What LOAD installs (R169). -/
structure Song where
  payload : List Byte
  loop : Option Nat
deriving DecidableEq, Repr

/-- How the reading of a file ends. -/
inductive LoadOutcome where
  | song (v : Song)
  | error (e : ErrorKind)
  | outside (r : Refusal)
deriving DecidableEq, Repr

/-- The loader up to the installation (R171). A header outside R168 is refused before its payload is read. -/
def readSong (aw : Nat) (src : ByteSource) : LoadOutcome :=
  match readExact Config.headerLen src.headerIoError src.bytes with
  | none => .error .truncatedFile
  | some (h, rest) =>
    match headerError h with
    | some e => .error e
    | none =>
      match headerRefusal aw h with
      | some r => .outside r
      | none =>
        match readExact (payloadLength h) src.payloadIoError rest with
        | none => .error .truncatedFile
        | some (payload, _) =>
          .song { payload := payload, loop := if loopValue h = 0 then none else some (loopIndex h) }

/-- The loop registers of a song (R167, R171). -/
def setLoop (loop : Option Nat) (s : State) : State :=
  match loop with
  | some k => { s with loopValid := true, loopOffset := k }
  | none => clearLoop s

/-- `BUF`, `LEN`, `LOOP_VALID`, `LOOP_OFFSET` as a whole (R40, R169). -/
def install (v : Song) (s : State) : State :=
  setLoop v.loop { s with buf := Memory.ofBytes 0 v.payload, len := v.payload.length }

end Sys2Proof.Machine
end

