-- ==== Sys2Proof/Machine/HostOps.lean ====
section
/-! DEFINITION. The host operations (R150), each atomic but FRAME, whose first step this is (R77). -/

namespace Sys2Proof.Machine

/-- INIT (R160): all state; LOOP_OFFSET and the working copies are unspecified. It cannot fail. -/
def initOp (s : State) : Result :=
  .next (report .init .ok (leaveFrame (clearLoop { resetPlayback s with buf := [], len := 0 })))

/-- RESET (R161). It cannot fail. -/
def resetOp (s : State) : Result := .next (report .reset .ok (resetPlayback s))

/-- LOAD (R171): install and reset on success (R169), nothing changed on failure (R170), refused outside R168. -/
def loadOp (src : ByteSource) (s : State) : Result :=
  match readSong s.params.aw src with
  | .song v => .next (report .load .ok (resetPlayback (install v s)))
  | .error e => .next (raise .load e s)
  | .outside r => .refused r

/-- Execute PSG output rows one after another (R38): each writes its byte to BUS. -/
def emitRows : List Instr → State → Result
  | [], s => .next s
  | i :: is, s =>
    match exec i s with
    | .next t => emitRows is t
    | .fault e => .fault e
    | .refused r => .refused r

/-- An encoder operation: its rows executed, or OutOfRange and nothing written (R134). -/
def encoderOp (op : OpKind) (rows : Except ErrorKind (List Instr)) (s : State) : Result :=
  match rows with
  | .error e => .next (raise op e s)
  | .ok is =>
    match emitRows is s with
    | .next t => .next (report op .ok t)
    | .fault e => .fault e
    | .refused r => .refused r

/-- SET_FREQ (R116): latch byte, then data byte. -/
def setFreqOp (ch : Int) (f : BitVec 64) (s : State) : Result :=
  encoderOp .setFreq (frequencyRows s.params.freqArith ch f) s

/-- SET_VOL (R118). -/
def setVolOp (ch vol : Int) (s : State) : Result := encoderOp .setVol (volumeRows ch vol) s

/-- SET_NOISE (R120). -/
def setNoiseOp (mode rate : Int) (s : State) : Result := encoderOp .setNoise (noiseRows mode rate) s

/-- The registers the host may read (R23). -/
def statusOf (s : State) : Status where
  offset := s.offset
  ticks := s.ticks
  finished := s.finished
  len := s.len
  loopValid := s.loopValid
  loopOffset := s.loopOffset

/-- The status read (R23, R150). -/
def readStatusOp (s : State) : Result := .next (report .readStatus (.status (statusOf s)) s)

/-- One request. -/
def perform (op : HostOp) (s : State) : Result :=
  match op with
  | .init => initOp s
  | .reset => resetOp s
  | .load src => loadOp src s
  | .frame => startFrame s
  | .setFreq ch f => setFreqOp ch f s
  | .setVol ch vol => setVolOp ch vol s
  | .setNoise mode rate => setNoiseOp mode rate s
  | .readStatus => readStatusOp s

/-- One step of the block: a Turn while a FRAME is decoding; otherwise the host's next request (R77: "The host has a
step only when PHASE = IDLE"); with nothing requested the block holds its state (R149). -/
def stepState (s : State) : Result :=
  match s.phase with
  | .decode => turn s
  | .idle =>
    match s.requests with
    | [] => .next s
    | op :: rest => perform op { s with requests := rest }

end Sys2Proof.Machine
end

