-- ==== Sys2Proof/Machine/Step.lean ====
section
/-! DEFINITION. The step of the machine, and the placing of one instruction where the next step fetches. -/

namespace Sys2Proof.Machine

/-- One step (R77). -/
def step (s : State) : Host.Outcome State Fault Refusal := stepState s

/-- `s` with an instruction word, numbered as spec/opcode_table.json numbers its bits, where the next Turn fetches, so
that the next step runs it (log entry 13). -/
def State.withFetchWord (s : State) (nbits w : Nat) : State := placeWord s nbits w

end Sys2Proof.Machine
end

