-- ==== Sys2Proof/Machine/Assembler.lean ====
section
/-! DEFINITION. The assembler syntax and the pseudo-instructions of R57 (D20). A label is a number in place of a name
(log entry 26). -/

namespace Sys2Proof.Machine

inductive AsmLine where
  | psgw (dd : Nat)
  | waitN (n : Nat)
  | wait1
  | endData
  | label (name : Nat)
  /-- `.loop label`. -/
  | loop (name : Nat)
  /-- `.byte b`. -/
  | byte (b : Byte)
  | tone (ch reg : Nat)
  | vol (ch v : Nat)
  | noise (mode rate : Nat)
deriving DecidableEq, Repr

/-- The bytes of one line (R57); none where an operand is outside its range. -/
def AsmLine.bytes (p : Params) : AsmLine → Option (List Byte)
  | .psgw dd => if dd ≤ 255 then some [0x50#8, BitVec.ofNat 8 dd] else none
  | .waitN n => if n ≤ 65535 then some [0x61#8, BitVec.ofNat 8 (n % 256), BitVec.ofNat 8 (n / 256)] else none
  | .wait1 => some [0x62#8]
  | .endData => some [0x66#8]
  | .label _ => some []
  | .loop _ => some []
  | .byte b => some [b]
  | .tone ch reg =>
    if ch ≤ 2 ∧ reg ≤ 1023 then
      some [0x50#8, BitVec.ofNat 8 (0x80 + 32 * ch + reg % 16), 0x50#8, BitVec.ofNat 8 (reg / 16)]
    else none
  | .vol ch v => if ch ≤ 3 ∧ v ≤ 15 then some [0x50#8, BitVec.ofNat 8 (0x90 + 32 * ch + (15 - v))] else none
  | .noise mode rate =>
    if mode ≤ 1 ∧ rate ≤ 3 then
      some [0x50#8, BitVec.ofNat 8 (0xE0 + (if p.noiseBit4 then 16 else 0) + 4 * mode + rate)]
    else none

/-- The bytes of a program. -/
def assemble (p : Params) : List AsmLine → Option (List Byte)
  | [] => some []
  | l :: ls =>
    match l.bytes p, assemble p ls with
    | some a, some b => some (a ++ b)
    | _, _ => none

/-- The index a label names, counted from `at_`. Of a label defined twice the first definition counts (DESIGN CHOICE, log
entry 26: R57 is silent). -/
def labelIndex (p : Params) (name : Nat) (at_ : Nat) : List AsmLine → Option Nat
  | [] => none
  | l :: ls =>
    if l = .label name then some at_
    else labelIndex p name (at_ + ((l.bytes p).getD []).length) ls

/-- The label the program's `.loop` names, if it has one; of several the first (DESIGN CHOICE, log entry 26). -/
def loopLabel : List AsmLine → Option Nat
  | [] => none
  | .loop name :: _ => some name
  | _ :: ls => loopLabel ls

/-- LOOP_OFFSET of a program: none where it has no `.loop`, and none where its `.loop` names an undefined label (DESIGN
CHOICE, log entry 26: R57 is silent). -/
def assembledLoop (p : Params) (prog : List AsmLine) : Option Nat :=
  match loopLabel prog with
  | none => none
  | some name => labelIndex p name 0 prog

end Sys2Proof.Machine
end

