-- ==== Sys2Proof/Machine/BigStep.lean ====
section
/-! DEFINITION. FRAME as the one pseudocode of R76, on its own locals `i`, `t`, `fin` and without the decoder or the
meanings of exec: a second rendering of the same rules, which the small-step machine must agree with (R77). The loop
runs under fuel, since a FRAME may never end (R175). -/

namespace Sys2Proof.Machine

/-- The locals of R76 and the BUS trace. -/
structure Locals where
  i : Nat
  t : Ticks
  fin : Bool
  bus : List Byte
deriving DecidableEq, Repr

/-- How the loop of R76 ends. -/
inductive LoopEnd where
  | exits (v : Locals)
  | raises (e : ErrorKind) (v : Locals)
  | overflows
deriving DecidableEq, Repr

/-- `t <- t + n; i <- i + k; exit loop` (R76). -/
def exitAfterWait (v : Locals) (n : Nat) (k : Nat) : LoopEnd :=
  match narrowTicks (v.t.toInt + n) with
  | some t => .exits { v with t := t, i := v.i + k }
  | none => .overflows

/-- The loop of R76; none when the fuel runs out, which is no result of the block. -/
def decodeLoop (s : State) : Nat → Locals → Option LoopEnd
  | 0, _ => none
  | fuel + 1, v =>
    if s.len ≤ v.i then some (.raises (.unexpectedEndOfStream v.i) v)
    else
      let b := s.buf.read v.i
      if b = 0x50#8 then
        if s.len ≤ v.i + 1 then some (.raises (.unexpectedEndOfStream v.i) v)
        else decodeLoop s fuel { v with bus := v.bus ++ [s.buf.read (v.i + 1)], i := v.i + 2 }
      else if b = 0x61#8 then
        if s.len ≤ v.i + 2 then some (.raises (.unexpectedEndOfStream v.i) v)
        else
          let n := (s.buf.read (v.i + 1)).toNat + 256 * (s.buf.read (v.i + 2)).toNat
          some (exitAfterWait v (n / 735) 3)
      else if b = 0x62#8 then some (exitAfterWait v 1 1)
      else if b = 0x66#8 then
        if s.loopValid then decodeLoop s fuel { v with i := s.loopOffset } else some (.exits { v with fin := true })
      else some (.raises (.unknownOpcode v.i b) v)

/-- The last line of R76, or the error; the operation ends either way. -/
def endFrame (s : State) : LoopEnd → Result
  | .exits v =>
    .next (report .frame .ok (leaveFrame { s with offset := v.i, ticks := v.t, finished := v.fin, bus := v.bus }))
  | .raises e v => .next (raise .frame e { s with bus := v.bus })
  | .overflows => .fault .ticksOverflow

/-- FRAME (R76). -/
def frameBigStep (fuel : Nat) (s : State) : Option Result :=
  if s.finished then some (.next (raise .frame .endOfSong s))
  else
    match narrowTicks (s.ticks.toInt - 1) with
    | none => some (.fault .ticksUnderflow)
    | some t =>
      if 0 < t.toInt then some (.next (report .frame .ok (leaveFrame { s with ticks := t })))
      else
        match decodeLoop s fuel { i := s.offset, t := t, fin := false, bus := s.bus } with
        | none => none
        | some e => some (endFrame s e)

end Sys2Proof.Machine
end

