-- ==== Sys2Proof/Safety.lean ====
section
/-! DEFINITION. The terms claims use: the invariant of every safe state (R17, R93), which request comes next, which
result a step reported, and which registers two states share. -/

namespace Sys2Proof.Machine

/-- STREAM is in its canonical form, no cell lies at or above LEN, and LEN fits AW bits (R14, R30). -/
abbrev State.StreamOk (s : State) : Prop :=
  s.buf.wf = true ∧ (∀ c ∈ s.buf, c.1 < s.len) ∧ s.len < 2 ^ s.params.aw

/-- A loop target is an index at or below LEN (R17(b)), and LOOP_OFFSET fits AW bits. -/
abbrev State.LoopOk (s : State) : Prop :=
  s.loopOffset < 2 ^ s.params.aw ∧ (s.loopValid = true → s.loopOffset ≤ s.len)

/-- R17(a) and R17(c), and the bound of R93 on TICKS. -/
abbrev State.PlaybackOk (s : State) : Prop :=
  s.offset ≤ s.len ∧ s.ticks.toInt ≤ 89 ∧
    (s.finished = true → s.offset < s.len ∧ s.buf.read s.offset = 0x66#8 ∧ s.loopValid = false)

/-- The working copies: within their width, and during a FRAME what R72, R73 and R93 say of them. -/
abbrev State.WorkingOk (s : State) : Prop :=
  s.wOffset < 2 ^ s.params.aw ∧
    (s.phase = .decode → s.wOffset ≤ s.len ∧ s.wTicks.toInt ≤ 0 ∧ s.wFin = false ∧ s.finished = false)

/-- The invariant. -/
abbrev State.Inv (s : State) : Prop := s.StreamOk ∧ s.LoopOk ∧ s.PlaybackOk ∧ s.WorkingOk

/-- No operation runs, and `op` is the next request, `rest` the ones after it. -/
abbrev State.Requesting (s : State) (op : HostOp) (rest : List HostOp) : Prop :=
  s.phase = .idle ∧ s.requests = op :: rest

/-- From `s` to `t` the host received exactly one result, `r` of operation `op`, and no operation runs any more. -/
abbrev State.Reported (s t : State) (op : OpKind) (r : OpResult) : Prop :=
  t.phase = .idle ∧ t.results = s.results ++ [{ op := op, result := r, busLen := t.bus.length }]

/-- The architectural registers and STREAM are the same (spec/10_state.md section 1), and so are the parameters. -/
abbrev State.SameRegisters (s t : State) : Prop :=
  t.offset = s.offset ∧ t.ticks = s.ticks ∧ t.finished = s.finished ∧ t.buf = s.buf ∧ t.len = s.len ∧
    t.loopValid = s.loopValid ∧ t.loopOffset = s.loopOffset ∧ t.params = s.params

/-- STREAM and the loop registers are the same: what LOAD installs (R40). -/
abbrev State.SameStream (s t : State) : Prop :=
  t.buf = s.buf ∧ t.len = s.len ∧ t.loopValid = s.loopValid ∧ t.loopOffset = s.loopOffset ∧ t.params = s.params

/-- A run of the machine (Host/Core.lean). -/
abbrev runSteps (n : Nat) (s : State) : Result := Host.Core.run Sys2Proof.core n s

/-- After `n` steps from `s` the machine answers `o`, and at every step before the last a FRAME was still decoding. -/
abbrev FrameRun (n : Nat) (s : State) (o : Result) : Prop :=
  runSteps n s = o ∧ ∀ m, 0 < m → m < n → ∃ u, runSteps m s = .next u ∧ u.phase = .decode

end Sys2Proof.Machine
end

