-- ==== Sys2Proof/Certificates/Slice0/Obligations.lean ====
section
/-! DEFINITION. The statements about the model. Each docstring names the rule of spec/ it formalises; the terms are
those of Sys2Proof/Safety.lean. -/

open Sys2Proof Sys2Proof.Machine

/-! ## Reset, INIT, RESET, LOAD -/

/-- The machine right after power-on (R160, R22): every value the spec gives. PHASE is IDLE between operations (R77).
An
empty buffer and no loop are the spec's decision D10. Nothing is said of the values the model chose (LOOP_OFFSET, the
working copies, the model's own fields). -/
def Obligations.PowerOnStateHasTheInitValues : Prop :=
  State.reset.offset = 0 ∧ State.reset.ticks.toInt = 0 ∧ State.reset.finished = false ∧ State.reset.buf = [] ∧
    State.reset.len = 0 ∧ State.reset.loopValid = false ∧ State.reset.phase = .idle ∧
    State.reset.bus = [0x9F#8, 0xBF#8, 0xDF#8, 0xFF#8]

/-- R160: INIT, requested in any state, writes the reset sequence, empties the buffer, clears the loop and zeroes
PlaybackState, and cannot fail. The empty buffer and the cleared loop are the spec's decision D10. LOOP_OFFSET is
unspecified, so nothing is said of it. -/
def Obligations.InitSetsAllState : Prop :=
  ∀ (s : State) (rest : List HostOp), s.Requesting .init rest →
    ∃ t, step s = .next t ∧ t.bus = s.bus ++ [0x9F#8, 0xBF#8, 0xDF#8, 0xFF#8] ∧ t.offset = 0 ∧ t.ticks.toInt = 0 ∧
      t.finished = false ∧ t.buf = [] ∧ t.len = 0 ∧ t.loopValid = false ∧ t.params = s.params ∧ t.requests = rest ∧
      s.Reported t .init .ok

/-- R161: RESET writes the reset sequence and zeroes PlaybackState, leaves STREAM and the loop, and cannot fail. -/
def Obligations.ResetZeroesPlaybackAndKeepsTheSong : Prop :=
  ∀ (s : State) (rest : List HostOp), s.Requesting .reset rest →
    ∃ t, step s = .next t ∧ t.bus = s.bus ++ [0x9F#8, 0xBF#8, 0xDF#8, 0xFF#8] ∧ t.offset = 0 ∧ t.ticks.toInt = 0 ∧
      t.finished = false ∧ s.SameStream t ∧ (∀ a, t.buf.read a = s.buf.read a) ∧ t.requests = rest ∧
      s.Reported t .reset .ok

/-- R169, with R166 and R167: LOAD of a file whose header passes the tests of R164 and meets R168, and whose payload is
there, installs payload, length and loop, and does what RESET does. `h` is the header, `payload` the payload, and
`extra` what the source holds after it. That LOAD writes the reset sequence is the spec's decision D11. -/
def Obligations.LoadInstallsTheSong : Prop :=
  ∀ (s : State) (rest : List HostOp) (h payload extra : List Byte),
    s.Requesting (.load { bytes := h ++ payload ++ extra }) rest →
    h.length = 64 → h.take 4 = [0x56#8, 0x67#8, 0x6D#8, 0x20#8] →
    le32At h 8 = 0x150 → le32At h 12 = 3579545 →
    60 ≤ le32At h 4 → payload.length = le32At h 4 + 4 - 64 → payload.length < 2 ^ s.params.aw →
    (le32At h 28 ≠ 0 → 36 ≤ le32At h 28 ∧ le32At h 28 - 36 ≤ payload.length) →
    ∃ t, step s = .next t ∧ t.len = payload.length ∧ (∀ k, k < payload.length → t.buf.read k = payload.getD k 0) ∧
      (t.loopValid = true ↔ le32At h 28 ≠ 0) ∧ (le32At h 28 ≠ 0 → t.loopOffset = le32At h 28 - 36) ∧
      t.bus = s.bus ++ [0x9F#8, 0xBF#8, 0xDF#8, 0xFF#8] ∧ t.offset = 0 ∧ t.ticks.toInt = 0 ∧ t.finished = false ∧
      t.params = s.params ∧ t.requests = rest ∧ s.Reported t .load .ok

/-- R135, R136, R137, R138 and R170: which error a LOAD raises, in the order of R143, and that it then installs nothing
and writes nothing. The last clause is the short payload of a header within R168. That a failed LOAD leaves the state, and that a
short header is TruncatedFile, are the spec's decisions D12 and D13. -/
def Obligations.LoadErrorsInstallNothing : Prop :=
  ∀ (s : State) (rest : List HostOp) (src : ByteSource) (h : List Byte), s.Requesting (.load src) rest →
    h = src.bytes.take 64 →
    ∀ e : ErrorKind,
      ((src.headerIoError = true ∨ src.bytes.length < 64) ∧ e = .truncatedFile) ∨
      ((src.headerIoError = false ∧ 64 ≤ src.bytes.length) ∧
        ((h.take 4 ≠ [0x56#8, 0x67#8, 0x6D#8, 0x20#8] ∧ e = .invalidHeader) ∨
        (h.take 4 = [0x56#8, 0x67#8, 0x6D#8, 0x20#8] ∧ le32At h 8 ≠ 0x150 ∧ e = .unsupportedVersion) ∨
        (h.take 4 = [0x56#8, 0x67#8, 0x6D#8, 0x20#8] ∧ le32At h 8 = 0x150 ∧ le32At h 12 ≠ 3579545 ∧
          e = .unsupportedClock) ∨
        (h.take 4 = [0x56#8, 0x67#8, 0x6D#8, 0x20#8] ∧ le32At h 8 = 0x150 ∧ le32At h 12 = 3579545 ∧
          60 ≤ le32At h 4 ∧ le32At h 4 - 60 < 2 ^ s.params.aw ∧
          (le32At h 28 ≠ 0 → 36 ≤ le32At h 28 ∧ le32At h 28 - 36 ≤ le32At h 4 - 60) ∧
          (src.payloadIoError = true ∨ src.bytes.length < 64 + (le32At h 4 - 60)) ∧ e = .truncatedFile))) →
      ∃ t, step s = .next t ∧ s.SameRegisters t ∧ t.bus = s.bus ∧ t.requests = rest ∧ s.Reported t .load (.error e)

/-- R168: a LOAD whose header passes the three tests and breaks a precondition is refused, under the name of the first
one broken (the spec's decision D14, "A model refuses it"; the names are the model's, log entry 10). -/
def Obligations.LoadOutsideItsPreconditionsIsRefused : Prop :=
  ∀ (s : State) (rest : List HostOp) (src : ByteSource) (h : List Byte), s.Requesting (.load src) rest →
    h = src.bytes.take 64 → src.headerIoError = false → 64 ≤ src.bytes.length →
    h.take 4 = [0x56#8, 0x67#8, 0x6D#8, 0x20#8] → le32At h 8 = 0x150 → le32At h 12 = 3579545 →
    (le32At h 4 < 60 → step s = .refused .loadLengthNegative) ∧
    (60 ≤ le32At h 4 → 2 ^ s.params.aw ≤ le32At h 4 - 60 → step s = .refused .loadLengthTooWide) ∧
    (60 ≤ le32At h 4 → le32At h 4 - 60 < 2 ^ s.params.aw → 0 < le32At h 28 → le32At h 28 < 36 →
      step s = .refused .loadLoopNegative) ∧
    (60 ≤ le32At h 4 → le32At h 4 - 60 < 2 ^ s.params.aw → 36 ≤ le32At h 28 → le32At h 4 - 60 < le32At h 28 - 36 →
      step s = .refused .loadLoopBeyondEnd)

/-- R165 and R163: the header bytes other than `0x00 .. 0x0F` and `0x1C .. 0x1F`, and the bytes of the source after the
payload, have no effect: two sources that agree on the rest give the same step. -/
def Obligations.LoadIgnoresUnusedBytes : Prop :=
  ∀ (s : State) (rest : List HostOp) (src src' : ByteSource), s.phase = .idle →
    64 ≤ src.bytes.length → 64 ≤ src'.bytes.length →
    src.headerIoError = src'.headerIoError → src.payloadIoError = src'.payloadIoError →
    (∀ k, k < 16 ∨ (28 ≤ k ∧ k < 32) → src.bytes.getD k 0 = src'.bytes.getD k 0) →
    (src.bytes.drop 64).take (le32At src.bytes 4 - 60) = (src'.bytes.drop 64).take (le32At src.bytes 4 - 60) →
    step { s with requests := .load src :: rest } = step { s with requests := .load src' :: rest }

/-- R23 and R150 (the spec's decision D8): the status read returns the six registers and changes nothing. -/
def Obligations.StatusReadReturnsTheRegisters : Prop :=
  ∀ (s : State) (rest : List HostOp), s.Requesting .readStatus rest →
    ∃ t v, step s = .next t ∧ s.SameRegisters t ∧ t.bus = s.bus ∧ t.requests = rest ∧
      s.Reported t .readStatus (.status v) ∧ v.offset = s.offset ∧ v.ticks = s.ticks ∧ v.finished = s.finished ∧
      v.len = s.len ∧ v.loopValid = s.loopValid ∧ v.loopOffset = s.loopOffset

/-- R149: "A block that is not being asked for FRAME simply holds its state." -/
def Obligations.IdleBlockHoldsItsState : Prop :=
  ∀ s : State, s.phase = .idle → s.requests = [] → step s = .next s

/-! ## The start of a FRAME -/

/-- R71: FRAME on a finished song raises EndOfSong; nothing is decremented, read or written. -/
def Obligations.FrameOnFinishedSongRaisesEndOfSong : Prop :=
  ∀ (s : State) (rest : List HostOp), s.Requesting .frame rest → s.finished = true →
    ∃ t, step s = .next t ∧ s.SameRegisters t ∧ t.bus = s.bus ∧ t.requests = rest ∧
      s.Reported t .frame (.error .endOfSong)

/-- R72 and R73: TICKS - 1 above 0 is stored and the FRAME ends, nothing else written; at 0 or below the decode phase is
entered on working copies, no register written. -/
def Obligations.FrameDecrementsThenWaitsOrDecodes : Prop :=
  ∀ (s : State) (rest : List HostOp), s.Requesting .frame rest → s.finished = false → -2 ^ 31 < s.ticks.toInt →
    (0 < s.ticks.toInt - 1 →
      ∃ t, step s = .next t ∧ t.ticks.toInt = s.ticks.toInt - 1 ∧ t.offset = s.offset ∧ t.finished = s.finished ∧
        s.SameStream t ∧ t.bus = s.bus ∧ t.requests = rest ∧ s.Reported t .frame .ok) ∧
    (s.ticks.toInt - 1 ≤ 0 →
      ∃ t, step s = .next t ∧ t.phase = .decode ∧ t.wTicks.toInt = s.ticks.toInt - 1 ∧ t.wOffset = s.offset ∧
        t.wFin = false ∧ s.SameRegisters t ∧ t.bus = s.bus ∧ t.results = s.results ∧ t.requests = rest)

/-- U1 (R13): the one decrement that is not defined is a fault, the spec's decision D3 (log entry 9). -/
def Obligations.FrameFaultsOnTicksUnderflow : Prop :=
  ∀ (s : State) (rest : List HostOp), s.Requesting .frame rest → s.finished = false → s.ticks.toInt = -2 ^ 31 →
    step s = .fault .ticksUnderflow

/-- R81 and R147: while TICKS is above n, n requested FRAMEs only wait: each takes one step and one tick. -/
def Obligations.WaitingFramesOnlyCountDown : Prop :=
  ∀ (n : Nat) (s : State) (rest : List HostOp), s.phase = .idle → s.requests = List.replicate n .frame ++ rest →
    s.finished = false → (n : Int) < s.ticks.toInt →
    ∃ t, runSteps n s = .next t ∧ t.ticks.toInt = s.ticks.toInt - n ∧ t.offset = s.offset ∧ t.finished = false ∧
      s.SameStream t ∧ t.bus = s.bus ∧ t.phase = .idle ∧ t.requests = rest ∧
      t.results = s.results ++ List.replicate n { op := .frame, result := .ok, busLen := s.bus.length }

/-- R82: FRAME on an empty buffer, with TICKS at 1 or below, raises UnexpectedEndOfStream at 0 and leaves the state, so
that it would do so again. -/
def Obligations.FrameOnEmptyStreamRaisesEndOfStream : Prop :=
  ∀ (s : State) (rest : List HostOp), s.Requesting .frame rest → s.finished = false → s.len = 0 → s.offset = 0 →
    -2 ^ 31 < s.ticks.toInt → s.ticks.toInt ≤ 1 →
    ∃ t, runSteps 2 s = .next t ∧ s.SameRegisters t ∧ t.bus = s.bus ∧ t.requests = rest ∧
      s.Reported t .frame (.error (.unexpectedEndOfStream 0))

/-! ## A Turn and the commands -/

/-- A Turn runs the decoded instruction: where the bytes at W_OFFSET are the encoding of a well-formed STREAM row and
lie below LEN, the step is exec of that row and nothing around it (R74, R77). -/
def Obligations.StepRunsTheInstructionAtTheOffset : Prop :=
  ∀ (s : State) (i : Instr), s.phase = .decode → i.wellFormed = true → i.inStream = true →
    s.wOffset + (encode s.params i).length ≤ s.len →
    s.buf.readBytes s.wOffset (encode s.params i).length = encode s.params i →
    step s = exec i s

/-- R133 and R74: where the opcode byte, or an operand byte of 0x50 or 0x61, is missing, the Turn raises
UnexpectedEndOfStream at W_OFFSET; no register is written and nothing goes to BUS. That the payload is the opcode's
index is the spec's decision D6, that the state is kept D4. -/
def Obligations.MissingByteRaisesEndOfStream : Prop :=
  ∀ s : State, s.phase = .decode →
    (s.len ≤ s.wOffset ∨
      (s.wOffset < s.len ∧ s.buf.read s.wOffset = 0x50#8 ∧ s.len ≤ s.wOffset + 1) ∨
      (s.wOffset < s.len ∧ s.buf.read s.wOffset = 0x61#8 ∧ s.len ≤ s.wOffset + 2)) →
    ∃ t, step s = .next t ∧ s.SameRegisters t ∧ t.bus = s.bus ∧ t.requests = s.requests ∧
      s.Reported t .frame (.error (.unexpectedEndOfStream s.wOffset))

/-- R90: PSGW with its operand present writes it to BUS, advances W_OFFSET by 2 and continues, everything else kept
(the whole next state is given); with the operand missing it raises UnexpectedEndOfStream and writes nothing. The
third clause is the command met in STREAM. The payload of the error is the spec's decision D6. -/
def Obligations.PsgwWritesItsOperandToBus : Prop :=
  ∀ s : State,
    (∀ dd : Byte, s.wOffset + 1 < s.len →
      exec (.psgw dd) s = .next { s with bus := s.bus ++ [dd], wOffset := s.wOffset + 2 }) ∧
    (∀ dd : Byte, s.len ≤ s.wOffset + 1 →
      ∃ t, exec (.psgw dd) s = .next t ∧ s.SameRegisters t ∧ t.bus = s.bus ∧ t.requests = s.requests ∧
        s.Reported t .frame (.error (.unexpectedEndOfStream s.wOffset))) ∧
    (s.phase = .decode → s.wOffset + 1 < s.len → s.buf.read s.wOffset = 0x50#8 →
      step s = .next { s with bus := s.bus ++ [s.buf.read (s.wOffset + 1)], wOffset := s.wOffset + 2 })

/-- R92: WAITN with its operand present adds `n div 735` to W_TICKS, advances W_OFFSET by 3, and commits; with the
operand missing it raises UnexpectedEndOfStream (R133) at the opcode's index, the spec's decision D6, and keeps the
registers, its decision D4 (log entries 14 and 15). The sum fits 32 bits wherever W_TICKS is at most 0, as it is in the
decode phase (R72, R93); where it does not fit, WaitFaultsOnTicksOverflow. The third clause is the command met in
STREAM, its operand little-endian (R54). -/
def Obligations.WaitNAddsWholeFramesAndCommits : Prop :=
  ∀ s : State,
    (∀ n : BitVec 16, s.wOffset + 2 < s.len → s.wTicks.toInt + ((n.toNat / 735 : Nat) : Int) < 2 ^ 31 →
      ∃ t, exec (.waitN n) s = .next t ∧ t.ticks.toInt = s.wTicks.toInt + ((n.toNat / 735 : Nat) : Int) ∧
        t.offset = s.wOffset + 3 ∧ t.finished = s.wFin ∧ s.SameStream t ∧ t.bus = s.bus ∧ t.requests = s.requests ∧
        s.Reported t .frame .ok) ∧
    (∀ n : BitVec 16, s.len ≤ s.wOffset + 2 →
      ∃ t, exec (.waitN n) s = .next t ∧ s.SameRegisters t ∧ t.bus = s.bus ∧ t.requests = s.requests ∧
        s.Reported t .frame (.error (.unexpectedEndOfStream s.wOffset))) ∧
    (s.phase = .decode → s.wOffset + 2 < s.len → s.buf.read s.wOffset = 0x61#8 → s.wTicks.toInt ≤ 0 →
      ∃ t, step s = .next t ∧
        t.ticks.toInt = s.wTicks.toInt +
          ((((s.buf.read (s.wOffset + 1)).toNat + 256 * (s.buf.read (s.wOffset + 2)).toNat) / 735 : Nat) : Int) ∧
        t.offset = s.wOffset + 3 ∧ t.finished = s.wFin ∧ s.SameStream t ∧ t.bus = s.bus ∧ t.requests = s.requests ∧
        s.Reported t .frame .ok)

/-- R94: WAIT1 adds 1 to W_TICKS, advances W_OFFSET by 1, and commits. The second clause is the command met in
STREAM. -/
def Obligations.WaitOneAddsOneFrameAndCommits : Prop :=
  ∀ s : State,
    (s.wTicks.toInt + 1 < 2 ^ 31 →
      ∃ t, exec .wait1 s = .next t ∧ t.ticks.toInt = s.wTicks.toInt + 1 ∧ t.offset = s.wOffset + 1 ∧
        t.finished = s.wFin ∧ s.SameStream t ∧ t.bus = s.bus ∧ t.requests = s.requests ∧ s.Reported t .frame .ok) ∧
    (s.phase = .decode → s.wOffset < s.len → s.buf.read s.wOffset = 0x62#8 → s.wTicks.toInt ≤ 0 →
      ∃ t, step s = .next t ∧ t.ticks.toInt = s.wTicks.toInt + 1 ∧ t.offset = s.wOffset + 1 ∧
        t.finished = s.wFin ∧ s.SameStream t ∧ t.bus = s.bus ∧ t.requests = s.requests ∧ s.Reported t .frame .ok)

/-- R96: END with a loop sets W_OFFSET to LOOP_OFFSET and continues, everything else kept; without one it commits with
FINISHED set, W_OFFSET staying at the END (the spec's decision D7). The last clauses are the command met in STREAM. -/
def Obligations.EndLoopsOrFinishes : Prop :=
  ∀ s : State,
    (s.loopValid = true → exec .endData s = .next { s with wOffset := s.loopOffset }) ∧
    (s.loopValid = false →
      ∃ t, exec .endData s = .next t ∧ t.finished = true ∧ t.offset = s.wOffset ∧ t.ticks = s.wTicks ∧
        s.SameStream t ∧ t.bus = s.bus ∧ t.requests = s.requests ∧ s.Reported t .frame .ok) ∧
    (s.phase = .decode → s.wOffset < s.len → s.buf.read s.wOffset = 0x66#8 → s.loopValid = true →
      step s = .next { s with wOffset := s.loopOffset }) ∧
    (s.phase = .decode → s.wOffset < s.len → s.buf.read s.wOffset = 0x66#8 → s.loopValid = false →
      ∃ t, step s = .next t ∧ t.finished = true ∧ t.offset = s.wOffset ∧ t.ticks = s.wTicks ∧
        s.SameStream t ∧ t.bus = s.bus ∧ t.requests = s.requests ∧ s.Reported t .frame .ok)

/-- R98: any other first byte raises UnknownOpcode with its index and value; no register is written and nothing goes to
BUS. The second clause is the byte met in STREAM. -/
def Obligations.UnknownOpcodeIsReportedAndChangesNothing : Prop :=
  ∀ (s : State) (b : Byte),
    (∃ t, exec (.illegal b) s = .next t ∧ s.SameRegisters t ∧ t.bus = s.bus ∧ t.requests = s.requests ∧
      s.Reported t .frame (.error (.unknownOpcode s.wOffset b))) ∧
    (s.phase = .decode → s.wOffset < s.len → s.buf.read s.wOffset = b →
      b ≠ 0x50#8 → b ≠ 0x61#8 → b ≠ 0x62#8 → b ≠ 0x66#8 →
      ∃ t, step s = .next t ∧ s.SameRegisters t ∧ t.bus = s.bus ∧ t.requests = s.requests ∧
        s.Reported t .frame (.error (.unknownOpcode s.wOffset b)))

/-- R13 ("an addition passing `2^31 - 1` is not defined by the source"), U1: a wait whose sum leaves 32 bits is a fault
of the model (its choice, log entry 9); no run reaches it (R93). -/
def Obligations.WaitFaultsOnTicksOverflow : Prop :=
  ∀ s : State,
    (∀ n : BitVec 16, s.wOffset + 2 < s.len → 2 ^ 31 ≤ s.wTicks.toInt + ((n.toNat / 735 : Nat) : Int) →
      exec (.waitN n) s = .fault .ticksOverflow) ∧
    (2 ^ 31 ≤ s.wTicks.toInt + 1 → exec .wait1 s = .fault .ticksOverflow)

/-- R75: which commands continue the loop and which stop it. -/
def Obligations.CommandsContinueOrStopTheLoop : Prop :=
  ∀ s : State, s.phase = .decode → s.wTicks.toInt ≤ 0 →
    (∀ dd : Byte, s.wOffset + 1 < s.len → ∃ t, exec (.psgw dd) s = .next t ∧ t.phase = .decode ∧ t.wOffset = s.wOffset + 2) ∧
    (∀ n : BitVec 16, s.wOffset + 2 < s.len →
      ∃ t, exec (.waitN n) s = .next t ∧ t.phase = .idle ∧ t.finished = s.wFin) ∧
    (∃ t, exec .wait1 s = .next t ∧ t.phase = .idle ∧ t.finished = s.wFin) ∧
    (s.loopValid = true → ∃ t, exec .endData s = .next t ∧ t.phase = .decode ∧ t.wOffset = s.loopOffset) ∧
    (s.loopValid = false → ∃ t, exec .endData s = .next t ∧ t.phase = .idle ∧ t.finished = true) ∧
    (∀ b : Byte, ∃ t, exec (.illegal b) s = .next t ∧ t.phase = .idle ∧
      ∃ n, t.results = s.results ++ [{ op := .frame, result := .error (.unknownOpcode s.wOffset b), busLen := n }])

/-- The frame of every row (R101, R102, R21): no row changes STREAM, LEN, the loop registers, the parameters or the
requests; only a PSGW and the PSG output rows write BUS, and each writes the bytes given here; PSG output rows write no
register at all. -/
def Obligations.RowsLeaveStreamAndLoopUnchanged : Prop :=
  ∀ (i : Instr) (s t : State), exec i s = .next t →
    s.SameStream t ∧ (∀ a, t.buf.read a = s.buf.read a) ∧ t.requests = s.requests ∧
    (∀ dd, i = .psgw dd → t.ticks = s.ticks ∧ t.finished = s.finished ∧ t.offset = s.offset ∧
      t.bus = if s.wOffset + 1 < s.len then s.bus ++ [dd] else s.bus) ∧
    ((∀ dd, i ≠ .psgw dd) → i.inStream = true → t.bus = s.bus) ∧
    (i.inStream = false → t = { s with bus := s.bus ++ encode s.params i })

/-! ## The encoder -/

/-- R59 (with NOISE_BIT4 open, R60): executing a PSG output row writes its byte, given as a number, to BUS and changes
nothing else. -/
def Obligations.PsgRowsWriteTheirByte : Prop :=
  ∀ s : State,
    (∀ (ch : BitVec 2) (lo : BitVec 4), exec (.pToneLatch ch lo) s =
      .next { s with bus := s.bus ++ [BitVec.ofNat 8 (0x80 + 32 * ch.toNat + lo.toNat)] }) ∧
    (∀ hi : BitVec 6, exec (.pToneData hi) s = .next { s with bus := s.bus ++ [BitVec.ofNat 8 hi.toNat] }) ∧
    (∀ (ch : BitVec 2) (att : BitVec 4), exec (.pVol ch att) s =
      .next { s with bus := s.bus ++ [BitVec.ofNat 8 (0x90 + 32 * ch.toNat + att.toNat)] }) ∧
    (∀ (mode : BitVec 1) (rate : BitVec 2), exec (.pNoise mode rate) s =
      .next { s with bus := s.bus ++
        [BitVec.ofNat 8 (0xE0 + (if s.params.noiseBit4 then 16 else 0) + 4 * mode.toNat + rate.toNat)] })

/-- R116, with R110: SET_FREQ with a legal channel and frequency writes the latch byte, then the data byte, and no
register; otherwise it raises OutOfRange and writes nothing. The legal frequencies are the spec's decision D16. -/
def Obligations.SetFreqWritesLatchThenData : Prop :=
  ∀ (s : State) (rest : List HostOp) (ch : Int) (f : BitVec 64), s.Requesting (.setFreq ch f) rest →
    (0 ≤ ch → ch ≤ 2 → legalFrequency f = true →
      ∃ t, step s = .next t ∧
        t.bus = s.bus ++ [BitVec.ofNat 8 (0x80 + 32 * ch.toNat + toneRegister s.params.freqArith f % 16),
          BitVec.ofNat 8 (toneRegister s.params.freqArith f / 16)] ∧
        s.SameRegisters t ∧ t.requests = rest ∧ s.Reported t .setFreq .ok) ∧
    (ch < 0 ∨ 2 < ch ∨ legalFrequency f = false →
      ∃ t, step s = .next t ∧ t.bus = s.bus ∧ s.SameRegisters t ∧ t.requests = rest ∧
        s.Reported t .setFreq (.error .outOfRange))

/-- R110 and D16: the legal frequencies are the finite positive binary64 values; NaN, infinities, zero and negatives
are not. The bit pattern's sign, exponent and fraction fields are bits 63, 62 to 52 and 51 to 0. -/
def Obligations.LegalFrequenciesAreFiniteAndPositive : Prop :=
  ∀ f : BitVec 64, legalFrequency f = true ↔ 0 < f.toNat ∧ f.toNat < 2047 * 2 ^ 52

/-- R117 and R118: SET_VOL with legal arguments writes the byte with the inverted volume and no register; otherwise it
raises OutOfRange and writes nothing. -/
def Obligations.SetVolWritesInvertedVolume : Prop :=
  ∀ (s : State) (rest : List HostOp) (ch vol : Int), s.Requesting (.setVol ch vol) rest →
    (0 ≤ ch → ch ≤ 3 → 0 ≤ vol → vol ≤ 15 →
      ∃ t, step s = .next t ∧ t.bus = s.bus ++ [BitVec.ofNat 8 (0x90 + 32 * ch.toNat + (15 - vol.toNat))] ∧
        s.SameRegisters t ∧ t.requests = rest ∧ s.Reported t .setVol .ok) ∧
    (ch < 0 ∨ 3 < ch ∨ vol < 0 ∨ 15 < vol →
      ∃ t, step s = .next t ∧ t.bus = s.bus ∧ s.SameRegisters t ∧ t.requests = rest ∧
        s.Reported t .setVol (.error .outOfRange))

/-- R119 and R120: SET_NOISE with legal arguments writes the noise byte, for either value of NOISE_BIT4, and no
register; otherwise it raises OutOfRange and writes nothing. Bit 3 being 0 is the spec's decision D18. -/
def Obligations.SetNoiseWritesModeAndRate : Prop :=
  ∀ (s : State) (rest : List HostOp) (mode rate : Int), s.Requesting (.setNoise mode rate) rest →
    (0 ≤ mode → mode ≤ 1 → 0 ≤ rate → rate ≤ 3 →
      ∃ t, step s = .next t ∧
        t.bus = s.bus ++
          [BitVec.ofNat 8 (0xE0 + (if s.params.noiseBit4 then 16 else 0) + 4 * mode.toNat + rate.toNat)] ∧
        s.SameRegisters t ∧ t.requests = rest ∧ s.Reported t .setNoise .ok) ∧
    (mode < 0 ∨ 1 < mode ∨ rate < 0 ∨ 3 < rate →
      ∃ t, step s = .next t ∧ t.bus = s.bus ∧ s.SameRegisters t ∧ t.requests = rest ∧
        s.Reported t .setNoise (.error .outOfRange))

/-- R116, R118 and R120: SET_FREQ executes its latch row and then its data row, SET_VOL and SET_NOISE their one row, and
then report success: this is how the PSG output rows of the opcode table are run. -/
def Obligations.EncoderRequestsExecuteTheirRows : Prop :=
  ∀ (s : State) (rest : List HostOp),
    (∀ (ch : Int) (f : BitVec 64) (reg : Nat), s.Requesting (.setFreq ch f) rest → 0 ≤ ch → ch ≤ 2 →
      legalFrequency f = true → reg = toneRegister s.params.freqArith f →
      ∃ u v, exec (.pToneLatch (BitVec.ofNat 2 ch.toNat) (BitVec.ofNat 4 (reg % 16))) { s with requests := rest } =
          .next u ∧
        exec (.pToneData (BitVec.ofNat 6 (reg / 16))) u = .next v ∧ step s = .next (report .setFreq .ok v)) ∧
    (∀ ch vol : Int, s.Requesting (.setVol ch vol) rest → 0 ≤ ch → ch ≤ 3 → 0 ≤ vol → vol ≤ 15 →
      ∃ u, exec (.pVol (BitVec.ofNat 2 ch.toNat) (BitVec.ofNat 4 (15 - vol.toNat))) { s with requests := rest } =
          .next u ∧ step s = .next (report .setVol .ok u)) ∧
    (∀ mode rate : Int, s.Requesting (.setNoise mode rate) rest → 0 ≤ mode → mode ≤ 1 → 0 ≤ rate → rate ≤ 3 →
      ∃ u, exec (.pNoise (BitVec.ofNat 1 mode.toNat) (BitVec.ofNat 2 rate.toNat)) { s with requests := rest } =
          .next u ∧ step s = .next (report .setNoise .ok u))

/-- R112: the clamp is at 1021 and one-sided; plus infinity clamps too (R110); the clamp is no error: legal arguments
always encode. -/
def Obligations.ToneRegisterClampsAt1021 : Prop :=
  ∀ (a : FreqArith) (f : BitVec 64),
    toneRegister a f ≤ 1021 ∧
    (∀ q, floorQuotient a f = some q → q ≤ 1021 → toneRegister a f = q) ∧
    (∀ q, floorQuotient a f = some q → 1021 < q → toneRegister a f = 1021) ∧
    (floorQuotient a f = none → toneRegister a f = 1021) ∧
    (∀ (p : Params) (ch : Int), 0 ≤ ch → ch ≤ 2 → legalFrequency f = true → ∃ b1 b2, encFrequency p ch f = .ok [b1, b2])

/-- R110, R111 with FREQ_ARITH exact: the register is `floor(3579545 / (32 f))`, clamped, for `f = num / den`. -/
def Obligations.ExactToneRegisterIsTheFormula : Prop :=
  ∀ f : BitVec 64, legalFrequency f = true →
    toneRegister .exact f =
      min 1021 (3579545 * denOf (exponentOf f) / (32 * numOf (significandOf f) (exponentOf f)))

/-- R111, U6 (the two readings of the spec's decision D15): the binary64 register is never below the exact one, and at most one above it. -/
def Obligations.BinaryToneRegisterIsExactOrOneMore : Prop :=
  ∀ f : BitVec 64, legalFrequency f = true →
    toneRegister .exact f ≤ toneRegister .binary64 f ∧ toneRegister .binary64 f ≤ toneRegister .exact f + 1

/-- R111 ("round to nearest even"): the rounding step is nearest, and even on a tie. -/
def Obligations.RoundingIsNearestEven : Prop :=
  ∀ n d : Nat, 0 < d →
    2 * n ≤ 2 * (roundHalfEven n d * d) + d ∧ 2 * (roundHalfEven n d * d) ≤ 2 * n + d ∧
    (2 * n = 2 * (roundHalfEven n d * d) + d ∨ 2 * (roundHalfEven n d * d) = 2 * n + d → roundHalfEven n d % 2 = 0)

/-- R124: decoding the bit fields of an encoder output recovers channel and register, channel and volume, mode and
rate, with `b[hi:lo]` written by `BitVec.extractLsb'`. -/
def Obligations.EncoderBitFieldsRecoverTheArguments : Prop :=
  ∀ p : Params,
    (∀ (ch : Int) (f : BitVec 64) (bs : List Byte), encFrequency p ch f = .ok bs →
      ∃ b1 b2, bs = [b1, b2] ∧ ((b1.extractLsb' 5 2).toNat : Int) = ch ∧
        (b2.extractLsb' 0 6).toNat * 16 + (b1.extractLsb' 0 4).toNat = toneRegister p.freqArith f) ∧
    (∀ (ch vol : Int) (bs : List Byte), encVolume p ch vol = .ok bs →
      ∃ b, bs = [b] ∧ ((b.extractLsb' 5 2).toNat : Int) = ch ∧ 15 - ((b.extractLsb' 0 4).toNat : Int) = vol) ∧
    (∀ (mode rate : Int) (bs : List Byte), encNoise p mode rate = .ok bs →
      ∃ b, bs = [b] ∧ ((b.extractLsb' 2 1).toNat : Int) = mode ∧ ((b.extractLsb' 0 2).toNat : Int) = rate)

/-- R112 and the spec's property 6: no output of encode_frequency decodes to the reserved values 1022 and 1023. -/
def Obligations.EncodedToneIsNeverReserved : Prop :=
  ∀ (p : Params) (ch : Int) (f : BitVec 64) (b1 b2 : Byte), encFrequency p ch f = .ok [b1, b2] →
    (b2.extractLsb' 0 6).toNat * 16 + (b1.extractLsb' 0 4).toNat ≤ 1021

/-- R60 (the spec's decision D19 on NOISE_BIT4): with NOISE_BIT4 = 1 every noise byte is a volume byte of channel 3. -/
def Obligations.NoiseByteCollidesWithVolumeOfChannel3 : Prop :=
  ∀ (p : Params) (mode rate : Int), p.noiseBit4 = true → 0 ≤ mode → mode ≤ 1 → 0 ≤ rate → rate ≤ 3 →
    encNoise p mode rate = encVolume p 3 (15 - (4 * mode + rate))

/-- R122: the reset sequence is the four bytes, and they are the volume bytes of volume 0 for channels 0 to 3. -/
def Obligations.ResetSequenceSilencesAllChannels : Prop :=
  resetSequence = [0x9F#8, 0xBF#8, 0xDF#8, 0xFF#8] ∧
    ∀ (p : Params) (ch : Nat), ch ≤ 3 → encVolume p ch 0 = .ok [resetSequence.getD ch 0]

/-! ## Encodings -/

/-- Words written out from R50, R51, R58 and R59 decode to what they stand for. -/
def Obligations.SpecWordsDecode : Prop :=
  decode [0x50#8, 0x9F#8] = .ok (.psgw 0x9F#8, []) ∧ decode [0x50#8, 0x66#8, 0x62#8] = .ok (.psgw 0x66#8, [0x62#8]) ∧
  decode [0x61#8, 0xDF#8, 0x02#8] = .ok (.waitN 735#16, []) ∧ decode [0x61#8, 0x00#8, 0x01#8] = .ok (.waitN 256#16, []) ∧
  decode [0x62#8] = .ok (.wait1, []) ∧ decode [0x66#8] = .ok (.endData, []) ∧
  decode [0x99#8] = .ok (.illegal 0x99#8, [0x99#8]) ∧ decode [0x61#8, 0xDF#8] = .error .operandMissing ∧
  decode [] = .error .opcodeMissing ∧
  decodePsg Params.documented .toneLatch 0xAB#8 = some (.pToneLatch 1#2 0xB#4) ∧
  decodePsg Params.documented .toneData 0x1A#8 = some (.pToneData 0x1A#6) ∧
  decodePsg Params.documented .vol 0xD6#8 = some (.pVol 2#2 6#4) ∧
  decodePsg Params.documented .noise 0xF6#8 = some (.pNoise 1#1 2#2)

/-- R50 to R54: decoding the bytes of any well-formed STREAM row, whatever follows them, gives it back and the bytes
after its length. -/
def Obligations.DecodeOfEncodeIsTheInstruction : Prop :=
  ∀ (p : Params) (i : Instr) (rest : List Byte), i.wellFormed = true → i.inStream = true →
    decode (encode p i ++ rest) = .ok (i, (encode p i ++ rest).drop i.byteLength)

/-- R50, R52, R56: whatever is decoded is a well-formed STREAM row whose bytes stand at the head, and what is left is
what follows its length. -/
def Obligations.DecodedBytesAreTheEncoding : Prop :=
  ∀ (p : Params) (bs r : List Byte) (i : Instr), decode bs = .ok (i, r) →
    i.wellFormed = true ∧ i.inStream = true ∧ encode p i <+: bs ∧ r = bs.drop i.byteLength

/-- R58, R59 and R124: a well-formed PSG output row is recovered from its byte, read in its format. -/
def Obligations.PsgDecodeOfEncodeIsTheRow : Prop :=
  ∀ (p : Params) (i : Instr) (fmt : PsgFormat) (b : Byte), i.wellFormed = true → i.psgFormat? = some fmt →
    encode p i = [b] → decodePsg p fmt b = some i

/-- The fixed names of the host's check agree with each other: an instruction word placed at the fetch is what the next
step runs. How a word is placed is the model's choice (log entry 13). -/
def Obligations.PlacedWordIsWhatTheNextStepRuns : Prop :=
  ∀ (s : State) (nbits w : Nat) (i : Instr), s.buf.wf = true → decodeTableWord nbits w = some i →
    step (s.withFetchWord nbits w) = exec i (s.withFetchWord nbits w)

/-- R57 (the spec's decision D20): TONE, VOL and NOISE expand to PSGW commands carrying the bytes of the PSG output rows. -/
def Obligations.PseudoInstructionsExpandToPsgw : Prop :=
  ∀ p : Params,
    (∀ ch reg : Nat, ch ≤ 2 → reg ≤ 1023 →
      (AsmLine.tone ch reg).bytes p =
        some (((toneRows ch reg).flatMap (encode p)).flatMap fun b => encode p (.psgw b))) ∧
    (∀ ch v : Nat, ch ≤ 3 → v ≤ 15 →
      ∃ b, encVolume p ch v = .ok [b] ∧ (AsmLine.vol ch v).bytes p = some (encode p (.psgw b))) ∧
    (∀ mode rate : Nat, mode ≤ 1 → rate ≤ 3 →
      ∃ b, encNoise p mode rate = .ok [b] ∧ (AsmLine.noise mode rate).bytes p = some (encode p (.psgw b)))

/-! ## The whole machine -/

/-- The invariant of the safe states (R17 and R93 among it) holds after power-on. -/
def Obligations.PowerOnStateMeetsTheInvariant : Prop := State.reset.Inv

/-- Every step keeps the invariant, from every state that meets it (R17, R93). -/
def Obligations.StepKeepsTheInvariant : Prop :=
  ∀ s t : State, s.Inv → step s = .next t → t.Inv

/-- From a state that meets the invariant only the decrement of -2^31 can fault (R93, U1). -/
def Obligations.OnlyTicksUnderflowCanFault : Prop :=
  ∀ (s : State) (e : Fault), s.Inv → step s = .fault e →
    e = .ticksUnderflow ∧ s.phase = .idle ∧ s.requests.head? = some .frame ∧ s.finished = false ∧
      s.ticks.toInt = -2 ^ 31

/-- Only a LOAD is ever refused, and no instruction is (R168). -/
def Obligations.OnlyLoadCanBeRefused : Prop :=
  ∀ (s : State) (r : Refusal), step s = .refused r →
    s.phase = .idle ∧ ∃ src rest, s.requests = .load src :: rest

/-- R36, R38, R5: a step appends to the BUS trace, reports at most one result, takes at most the next request and none
while a FRAME is decoding, and writes no parameter. The requests and the results are fields of the model's own (log
entries 2 and 8). -/
def Obligations.StepOnlyAppendsToTheTraces : Prop :=
  ∀ s t : State, step s = .next t →
    s.bus <+: t.bus ∧ (t.results = s.results ∨ ∃ c, t.results = s.results ++ [c] ∧ c.busLen = t.bus.length) ∧
    t.params = s.params ∧
    (t.requests = s.requests ∨ (s.phase = .idle ∧ ∃ op, s.requests = op :: t.requests))

/-- R40 and R102: STREAM and the loop registers change only by a LOAD or an INIT. -/
def Obligations.OnlyLoadAndInitChangeTheStream : Prop :=
  ∀ s t : State, step s = .next t →
    s.SameStream t ∨
      (s.phase = .idle ∧ (s.requests.head? = some .init ∨ ∃ src, s.requests.head? = some (.load src)))

/-- R12: FINISHED is set only by END without a loop, and cleared only by INIT, RESET and a LOAD. -/
def Obligations.FinishedChangesOnlyByEndAndReset : Prop :=
  ∀ s t : State, s.Inv → step s = .next t →
    (s.finished = false → t.finished = true →
      s.phase = .decode ∧ s.wOffset < s.len ∧ s.buf.read s.wOffset = 0x66#8 ∧ s.loopValid = false) ∧
    (s.finished = true → t.finished = false →
      s.phase = .idle ∧ (s.requests.head? = some .init ∨ s.requests.head? = some .reset ∨
        ∃ src, s.requests.head? = some (.load src)))

/-- R83, for every step: with a loop no FRAME ever sets FINISHED. -/
def Obligations.LoopingSongNeverFinishes : Prop :=
  ∀ s t : State, s.Inv → s.loopValid = true → step s = .next t → t.finished = false

/-- R140: a step that ends an operation in an error leaves every register as it was and writes nothing to BUS, and so
did every earlier step of that FRAME but for its BUS bytes (the spec's decisions D4 and D12). -/
def Obligations.ErrorsLeaveTheRegistersUnchanged : Prop :=
  ∀ s t : State, step s = .next t →
    (∀ op e n, t.results = s.results ++ [{ op := op, result := .error e, busLen := n }] →
      s.SameRegisters t ∧ t.phase = .idle ∧ t.bus = s.bus ∧ n = s.bus.length) ∧
    (t.phase = .decode → s.SameRegisters t ∧ t.results = s.results)

/-- R141: a FRAME that ended in an error, requested again, writes the same bytes again and raises the same error
(an inference of the spec's, from R140 and R76). -/
def Obligations.FrameAfterErrorReplays : Prop :=
  ∀ (fuel : Nat) (s t : State) (e : ErrorKind) (n : Nat), frameBigStep fuel s = some (.next t) →
    t.results = s.results ++ [{ op := .frame, result := .error e, busLen := n }] →
    ∃ u bs, t.bus = s.bus ++ bs ∧ frameBigStep fuel t = some (.next u) ∧ u.bus = t.bus ++ bs ∧
      t.Reported u .frame (.error e) ∧ s.SameRegisters t ∧ t.SameRegisters u

/-- R77 (the spec's decision D1): wherever the pseudocode of R76 ends, the small-step machine ends with the same outcome, through decoding
states only. -/
def Obligations.SmallStepsReachThePseudocodeResult : Prop :=
  ∀ (fuel : Nat) (s : State) (rest : List HostOp) (o : Result), s.Requesting .frame rest →
    frameBigStep fuel { s with requests := rest } = some o →
    ∃ n, 0 < n ∧ n ≤ fuel + 1 ∧ FrameRun n s o

/-- R77, R175: conversely, a FRAME that ends in the small-step machine ends in the pseudocode with the same outcome; so
where the pseudocode never ends, every number of steps leaves the machine decoding. -/
def Obligations.PseudocodeReachesTheSmallStepResult : Prop :=
  ∀ (n : Nat) (s t : State) (rest : List HostOp), s.Requesting .frame rest → 0 < n → FrameRun n s (.next t) →
    t.phase = .idle → frameBigStep n { s with requests := rest } = some (.next t)

/-- R175: a loop point that is the END itself makes the FRAME run for ever, the state a fixed point and nothing written
to BUS. -/
def Obligations.LoopOnTheEndItselfNeverEnds : Prop :=
  ∀ s : State, s.phase = .decode → s.wOffset < s.len → s.buf.read s.wOffset = 0x66#8 → s.loopValid = true →
    s.loopOffset = s.wOffset → ∀ n, runSteps n s = .next s

/-- The canonical form of STREAM decides equality: two memories in it that read the same everywhere are equal. -/
def Obligations.CanonicalMemoriesAreEqualByReads : Prop :=
  ∀ m m' : Memory, m.wf = true → m'.wf = true → (∀ a, m.read a = m'.read a) → m = m'

/-! ## The binary64 arithmetic of the tone register -/

/-- R111 ("round to nearest even", the spec's decision D15): the binary64 of a positive fraction. With the exponent
unbounded above it is `m * 2^k`, where `m` has 53 significant bits (fewer only at the smallest spacing, `2^-1074`; `2^53`
where rounding carries), at most half of `2^k` from `n / d`, and even where it is exactly half; at `2^1024` or more it
is plus infinity. A zero is zero. -/
def Obligations.RoundToBinary64IsNearestEven : Prop :=
  (∀ n d : Nat, 0 < n → 0 < d →
    ∃ (m : Nat) (k : Int), m ≤ 2 ^ 53 ∧ -1074 ≤ k ∧ (2 ^ 52 ≤ m ∨ k = -1074) ∧
      |(n : ℚ) / d - m * 2 ^ k| ≤ 2 ^ k / 2 ∧ (|(n : ℚ) / d - m * 2 ^ k| = 2 ^ k / 2 → m % 2 = 0) ∧
      (((m : ℚ) * 2 ^ k < 2 ^ (1024 : Nat) ∧ roundToBinary64 n d = .fin m k) ∨
        ((2 : ℚ) ^ (1024 : Nat) ≤ m * 2 ^ k ∧ roundToBinary64 n d = .inf))) ∧
  ∀ d : Nat, roundToBinary64 0 d = .fin 0 0

/-- R110 and R111 with FREQ_ARITH binary64 (the spec's decision D15): a legal frequency is `significand * 2^exponent`,
read from the fields of its pattern; the quotient is rounded once, at the division: its floor is that of the binary64 of
`3579545 / (32 f)`, whichever fraction `n / d` writes it, and none where that is plus infinity; where `32 f` overflows it
is 0. -/
def Obligations.BinaryQuotientIsRoundedOnce : Prop :=
  ∀ f : BitVec 64, legalFrequency f = true →
    (f.toNat / 2 ^ 52 = 0 → significandOf f = f.toNat ∧ exponentOf f = -1074) ∧
    (f.toNat / 2 ^ 52 ≠ 0 →
      significandOf f = 2 ^ 52 + f.toNat % 2 ^ 52 ∧ exponentOf f = ((f.toNat / 2 ^ 52 : Nat) : Int) - 1075) ∧
    ((2 : ℚ) ^ (1024 : Nat) ≤ 32 * ((significandOf f : ℚ) * 2 ^ exponentOf f) →
      floorQuotient .binary64 f = some 0) ∧
    (32 * ((significandOf f : ℚ) * 2 ^ exponentOf f) < 2 ^ (1024 : Nat) →
      ∀ n d : Nat, 0 < d → (n : ℚ) / d = 3579545 / (32 * ((significandOf f : ℚ) * 2 ^ exponentOf f)) →
        (∀ m k, roundToBinary64 n d = .fin m k → floorQuotient .binary64 f = some ⌊(m : ℚ) * 2 ^ k⌋₊) ∧
        (roundToBinary64 n d = .inf → floorQuotient .binary64 f = none))
end

