-- ==== Sys2Proof/Laws/Float64.lean ====
section
/-! SUPPORT. What the pieces of the binary64 arithmetic compute, in rationals: the value of a significand and an exponent,
the binary logarithm, and rounding at integers. -/

namespace Sys2Proof.Machine

theorem denOf_pos (e : Int) : 0 < denOf e := by unfold denOf; positivity

theorem numOf_pos {m : Nat} (e : Int) (h : 0 < m) : 0 < numOf m e := by unfold numOf; positivity

/-- A power of two with a signed exponent, as the fraction the model computes with. -/
theorem two_zpow_split (e : Int) : (2 : ℚ) ^ e = 2 ^ e.toNat / 2 ^ (-e).toNat := by
  rcases le_total 0 e with h | h
  · obtain ⟨n, rfl⟩ := Int.eq_ofNat_of_zero_le h
    simp
  · obtain ⟨n, hn⟩ := Int.eq_ofNat_of_zero_le (neg_nonneg.mpr h)
    obtain rfl : e = -(n : Int) := by omega
    simp [zpow_neg]

/-- `numOf` over `denOf` is the value `m * 2^e`. -/
theorem numOf_div_denOf (m : Nat) (e : Int) : (numOf m e : ℚ) / denOf e = m * 2 ^ e := by
  rw [two_zpow_split]
  unfold numOf denOf
  push_cast
  ring

/-! Rounding (R111: to nearest, ties to even) at an integer. -/

theorem le_roundHalfEven {n d j : Nat} (hd : 0 < d) (h : j * d ≤ n) : j ≤ roundHalfEven n d := by
  have hq : j ≤ n / d := (Nat.le_div_iff_mul_le hd).mpr h
  unfold roundHalfEven
  simp only
  split <;> omega

theorem roundHalfEven_le {n d j : Nat} (hd : 0 < d) (h : n ≤ j * d) : roundHalfEven n d ≤ j := by
  have hdm := Nat.div_add_mod n d
  have hr := Nat.mod_lt n hd
  have hq : n / d ≤ j := Nat.div_le_of_le_mul (by rw [Nat.mul_comm]; exact h)
  unfold roundHalfEven
  simp only
  split
  · next hc =>
    rcases Nat.lt_or_ge (n / d) j with hlt | hge
    · exact hlt
    · exfalso
      have he : n / d = j := Nat.le_antisymm hq hge
      rw [he, Nat.mul_comm] at hdm
      omega
  · exact hq

theorem roundHalfEven_mul {d : Nat} (hd : 0 < d) (j : Nat) : roundHalfEven (j * d) d = j :=
  Nat.le_antisymm (roundHalfEven_le hd (Nat.le_refl _)) (le_roundHalfEven hd (Nat.le_refl _))

/-- Rounding depends on the fraction alone. -/
theorem roundHalfEven_mul_right (n d : Nat) {c : Nat} (hc : 0 < c) :
    roundHalfEven (n * c) (d * c) = roundHalfEven n d := by
  have h1 : d * c < 2 * (n % d * c) ↔ d < 2 * (n % d) := by
    rw [← Nat.mul_assoc]
    exact Nat.mul_lt_mul_right hc
  have h2 : 2 * (n % d * c) = d * c ↔ 2 * (n % d) = d := by
    rw [← Nat.mul_assoc]
    exact Nat.mul_left_inj hc.ne'
  simp only [roundHalfEven, Nat.mul_div_mul_right _ _ hc, Nat.mul_mod_mul_right, h1, h2]

theorem roundHalfEven_congr {n d n' d' : Nat} (hd : 0 < d) (hd' : 0 < d') (h : n * d' = n' * d) :
    roundHalfEven n d = roundHalfEven n' d' := by
  rw [← roundHalfEven_mul_right n d hd', ← roundHalfEven_mul_right n' d' hd, h, Nat.mul_comm d d']

/-- `floorLog2` is the binary logarithm of the fraction, rounded down. -/
theorem floorLog2_spec {n d : Nat} (hn : 0 < n) (hd : 0 < d) :
    (2 : ℚ) ^ floorLog2 n d ≤ (n : ℚ) / d ∧ (n : ℚ) / d < 2 ^ (floorLog2 n d + 1) := by
  have hn' : (0 : ℚ) < n := by exact_mod_cast hn
  have hd' : (0 : ℚ) < d := by exact_mod_cast hd
  have n1 : ((2 : ℚ) ^ (n.log2 : Int)) ≤ n := by
    rw [zpow_natCast]; exact_mod_cast Nat.log2_self_le (by omega)
  have n2 : (n : ℚ) < 2 ^ ((n.log2 : Int) + 1) := by
    have : n < 2 ^ (n.log2 + 1) := Nat.lt_log2_self
    have : (n : ℚ) < 2 ^ (n.log2 + 1) := by exact_mod_cast this
    exact_mod_cast this
  have d1 : ((2 : ℚ) ^ (d.log2 : Int)) ≤ d := by
    rw [zpow_natCast]; exact_mod_cast Nat.log2_self_le (by omega)
  have d2 : (d : ℚ) < 2 ^ ((d.log2 : Int) + 1) := by
    have : d < 2 ^ (d.log2 + 1) := Nat.lt_log2_self
    have : (d : ℚ) < 2 ^ (d.log2 + 1) := by exact_mod_cast this
    exact_mod_cast this
  set l : Int := (n.log2 : Int) - (d.log2 : Int) with hl
  have htest : d * 2 ^ l.toNat ≤ n * 2 ^ (-l).toNat ↔ (2 : ℚ) ^ l ≤ (n : ℚ) / d := by
    rw [two_zpow_split, div_le_div_iff₀ (by positivity) hd', mul_comm ((2 : ℚ) ^ l.toNat)]
    exact_mod_cast Iff.rfl
  have hup : (n : ℚ) / d < 2 ^ (l + 1) := by
    rw [div_lt_iff₀ hd']
    calc (n : ℚ) < 2 ^ ((n.log2 : Int) + 1) := n2
      _ = 2 ^ (l + 1) * 2 ^ (d.log2 : Int) := by rw [← zpow_add₀ (by norm_num)]; congr 1; omega
      _ ≤ 2 ^ (l + 1) * d := by gcongr
  have hlow : (2 : ℚ) ^ (l - 1) ≤ (n : ℚ) / d := by
    rw [le_div_iff₀ hd']
    calc (2 : ℚ) ^ (l - 1) * d ≤ 2 ^ (l - 1) * 2 ^ ((d.log2 : Int) + 1) := by gcongr
      _ = 2 ^ (n.log2 : Int) := by rw [← zpow_add₀ (by norm_num)]; congr 1; omega
      _ ≤ n := n1
  unfold floorLog2
  simp only
  rw [← hl]
  split
  · next h => exact ⟨htest.mp h, hup⟩
  · next h =>
    refine ⟨hlow, ?_⟩
    rw [show l - 1 + 1 = l by omega]
    exact lt_of_not_ge fun hc => h (htest.mpr hc)

/-! The rounding to binary64 depends on the fraction alone. -/

theorem lastPlace_congr {n d n' d' : Nat} (hn : 0 < n) (hd : 0 < d) (hn' : 0 < n') (hd' : 0 < d')
    (h : (n : ℚ) / d = n' / d') : lastPlace n d = lastPlace n' d' := by
  have a := floorLog2_spec hn hd
  have b := floorLog2_spec hn' hd'
  rw [h] at a
  have h1 := (zpow_lt_zpow_iff_right₀ (by norm_num : (1 : ℚ) < 2)).mp (lt_of_le_of_lt a.1 b.2)
  have h2 := (zpow_lt_zpow_iff_right₀ (by norm_num : (1 : ℚ) < 2)).mp (lt_of_le_of_lt b.1 a.2)
  unfold lastPlace
  omega

theorem roundToBinary64_congr {n d n' d' : Nat} (hn : 0 < n) (hd : 0 < d) (hn' : 0 < n') (hd' : 0 < d')
    (h : (n : ℚ) / d = n' / d') : roundToBinary64 n d = roundToBinary64 n' d' := by
  have hk := lastPlace_congr hn hd hn' hd' h
  have hx : n * d' = n' * d := by
    rw [div_eq_div_iff (by positivity) (by positivity)] at h
    exact_mod_cast h
  have hr : ∀ a b : Nat, 0 < a → 0 < b → roundHalfEven (n * a) (d * b) = roundHalfEven (n' * a) (d' * b) := by
    intro a b ha hb
    refine roundHalfEven_congr (by positivity) (by positivity) ?_
    calc n * a * (d' * b) = n * d' * (a * b) := by ring
      _ = n' * a * (d * b) := by rw [hx]; ring
  simp only [roundToBinary64, if_neg hn.ne', if_neg hn'.ne', hk,
    hr _ _ (Nat.two_pow_pos (-lastPlace n' d').toNat) (Nat.two_pow_pos (lastPlace n' d').toNat)]

/-! Rounding to binary64, by the value of the result. -/

/-- The significand `roundToBinary64` picks. -/
def roundedSignificand (n d : Nat) : Nat :=
  roundHalfEven (n * 2 ^ (-(lastPlace n d)).toNat) (d * 2 ^ (lastPlace n d).toNat)

/-- The value `roundToBinary64` picks, before its overflow test. -/
def roundedValue (n d : Nat) : ℚ := (roundedSignificand n d : ℚ) * 2 ^ lastPlace n d

/-- A fraction scaled to units of its last place. -/
theorem scaled_fraction (n d : Nat) (hd : 0 < d) (k : Int) :
    ((n * 2 ^ (-k).toNat : Nat) : ℚ) / ((d * 2 ^ k.toNat : Nat) : ℚ) = (n : ℚ) / d * 2 ^ (-k) := by
  rw [two_zpow_split (-k)]
  simp only [neg_neg]
  push_cast
  have : (d : ℚ) ≠ 0 := by exact_mod_cast hd.ne'
  field_simp

theorem two_pow_toNat {k : Int} (h : 0 ≤ k) : (2 : ℚ) ^ k.toNat = 2 ^ k := by
  rw [← zpow_natCast, Int.toNat_of_nonneg h]

theorem mul_le_of_le_div {a b c : Nat} (hb : 0 < b) (h : (a : ℚ) ≤ (c : ℚ) / b) : a * b ≤ c := by
  rw [le_div_iff₀ (by exact_mod_cast hb)] at h
  exact_mod_cast h

theorem le_mul_of_div_le {a b c : Nat} (hb : 0 < b) (h : (c : ℚ) / b ≤ a) : c ≤ a * b := by
  rw [div_le_iff₀ (by exact_mod_cast hb)] at h
  exact_mod_cast h

/-- The result is the rounded value where that is below `2^1024`, and otherwise plus infinity. -/
theorem roundToBinary64_cases (n d : Nat) (hn : 0 < n) :
    (roundToBinary64 n d = .inf ∧ (2 : ℚ) ^ 1024 ≤ roundedValue n d) ∨
    (∃ m k, roundToBinary64 n d = .fin m k ∧ (m : ℚ) * 2 ^ k = roundedValue n d ∧
      roundedValue n d < 2 ^ 1024) := by
  have htest : 2 ^ 1024 * denOf (lastPlace n d) ≤ numOf (roundedSignificand n d) (lastPlace n d) ↔
      (2 : ℚ) ^ 1024 ≤ roundedValue n d := by
    unfold roundedValue
    rw [← numOf_div_denOf, le_div_iff₀ (by exact_mod_cast denOf_pos _)]
    exact_mod_cast Iff.rfl
  unfold roundedSignificand at htest
  unfold roundToBinary64
  rw [if_neg (by omega)]
  simp only
  split
  · next h => exact .inl ⟨rfl, htest.mp h⟩
  · next h => exact .inr ⟨_, _, rfl, rfl, lt_of_not_ge (mt htest.mpr h)⟩

/-- Rounding does not fall below an integer up to `2^52` that lies below. -/
theorem le_roundedValue (n d j : Nat) (hn : 0 < n) (hd : 0 < d) (hj : j ≤ 2 ^ 52) (h : (j : ℚ) ≤ (n : ℚ) / d) :
    (j : ℚ) ≤ roundedValue n d := by
  unfold roundedValue
  set k := lastPlace n d with hk
  have hd' : 0 < d * 2 ^ k.toNat := by positivity
  by_cases hk0 : k ≤ 0
  · have : j * 2 ^ (-k).toNat ≤ roundedSignificand n d := by
      refine le_roundHalfEven hd' (mul_le_of_le_div hd' ?_)
      rw [scaled_fraction n d hd]
      push_cast
      rw [two_pow_toNat (by omega)]
      gcongr
    have h2 : ((j * 2 ^ (-k).toNat : Nat) : ℚ) ≤ roundedSignificand n d := by exact_mod_cast this
    have h3 : (2 : ℚ) ^ k = 1 / 2 ^ (-k).toNat := by
      rw [two_zpow_split, Int.toNat_of_nonpos hk0, pow_zero]
    rw [h3, mul_one_div, le_div_iff₀ (by positivity)]
    push_cast at h2
    exact h2
  · have hspec := (floorLog2_spec hn hd).1
    have hkl : k = floorLog2 n d - 52 := by unfold lastPlace at hk; omega
    have : 2 ^ 52 ≤ roundedSignificand n d := by
      refine le_roundHalfEven hd' (mul_le_of_le_div hd' ?_)
      rw [scaled_fraction n d hd]
      calc (((2 : Nat) ^ 52 : Nat) : ℚ) = 2 ^ (k + 52) * 2 ^ (-k) := by
            rw [← zpow_add₀ (by norm_num), show k + 52 + -k = ((52 : Nat) : Int) by omega, zpow_natCast]
            push_cast
            rfl
        _ ≤ (n : ℚ) / d * 2 ^ (-k) := by
            rw [show k + 52 = floorLog2 n d by omega]
            gcongr
    have h2 : ((2 ^ 52 : Nat) : ℚ) ≤ roundedSignificand n d := by exact_mod_cast this
    have h3 : (1 : ℚ) ≤ 2 ^ k := one_le_zpow₀ (by norm_num) (by omega)
    have h4 : (j : ℚ) ≤ ((2 ^ 52 : Nat) : ℚ) := by exact_mod_cast hj
    calc (j : ℚ) ≤ ((2 ^ 52 : Nat) : ℚ) * 1 := by rw [mul_one]; exact h4
      _ ≤ roundedSignificand n d * 2 ^ k := by gcongr

/-- Rounding does not rise above an integer up to `2^52` that lies above. -/
theorem roundedValue_le (n d j : Nat) (hn : 0 < n) (hd : 0 < d) (hj : j ≤ 2 ^ 52) (h : (n : ℚ) / d ≤ j) :
    roundedValue n d ≤ j := by
  unfold roundedValue
  set k := lastPlace n d with hk
  have hd' : 0 < d * 2 ^ k.toNat := by positivity
  have hk0 : k ≤ 0 := by
    by_contra hc
    have hspec := (floorLog2_spec hn hd).1
    have hkl : k = floorLog2 n d - 52 := by unfold lastPlace at hk; omega
    have h3 : (2 : ℚ) ^ (53 : Int) ≤ 2 ^ floorLog2 n d := zpow_le_zpow_right₀ (by norm_num) (by omega)
    have h4 : (j : ℚ) ≤ ((2 ^ 52 : Nat) : ℚ) := by exact_mod_cast hj
    have : (2 : ℚ) ^ (53 : Int) ≤ ((2 ^ 52 : Nat) : ℚ) := le_trans h3 (le_trans hspec (le_trans h h4))
    norm_num at this
  have : roundedSignificand n d ≤ j * 2 ^ (-k).toNat := by
    refine roundHalfEven_le hd' (le_mul_of_div_le hd' ?_)
    rw [scaled_fraction n d hd]
    push_cast
    rw [two_pow_toNat (by omega)]
    gcongr
  have h2 : (roundedSignificand n d : ℚ) ≤ ((j * 2 ^ (-k).toNat : Nat) : ℚ) := by exact_mod_cast this
  have h3 : (2 : ℚ) ^ k = 1 / 2 ^ (-k).toNat := by
    rw [two_zpow_split, Int.toNat_of_nonpos hk0, pow_zero]
  rw [h3, mul_one_div, div_le_iff₀ (by positivity)]
  push_cast at h2
  exact h2

/-- A value that has at most 53 significant bits and is a multiple of the subnormal spacing is not changed. -/
theorem roundedValue_exact (n d a : Nat) (e : Int) (hn : 0 < n) (hd : 0 < d) (ha : a < 2 ^ 53) (he : -1074 ≤ e)
    (h : (n : ℚ) / d = a * 2 ^ e) : roundedValue n d = a * 2 ^ e := by
  unfold roundedValue
  set k := lastPlace n d with hk
  have hd' : 0 < d * 2 ^ k.toNat := by positivity
  have hke : k ≤ e := by
    have hspec := (floorLog2_spec hn hd).1
    have h1 : (2 : ℚ) ^ floorLog2 n d < 2 ^ (53 + e) := by
      refine lt_of_le_of_lt hspec ?_
      rw [h, zpow_add₀ (by norm_num)]
      have : (a : ℚ) < 2 ^ (53 : Int) := by
        have : (a : ℚ) < ((2 ^ 53 : Nat) : ℚ) := by exact_mod_cast ha
        exact lt_of_lt_of_eq this (by norm_num)
      gcongr
    have := (zpow_lt_zpow_iff_right₀ (by norm_num : (1 : ℚ) < 2)).mp h1
    unfold lastPlace at hk
    omega
  have hs : roundedSignificand n d = a * 2 ^ (e - k).toNat := by
    have hnn : n * 2 ^ (-k).toNat = (a * 2 ^ (e - k).toNat) * (d * 2 ^ k.toNat) := by
      have : ((n * 2 ^ (-k).toNat : Nat) : ℚ) / ((d * 2 ^ k.toNat : Nat) : ℚ) =
          ((a * 2 ^ (e - k).toNat : Nat) : ℚ) := by
        rw [scaled_fraction n d hd, h]
        push_cast
        rw [two_pow_toNat (by omega), mul_assoc, ← zpow_add₀ (by norm_num)]
        rfl
      rw [div_eq_iff (by positivity)] at this
      exact_mod_cast this
    unfold roundedSignificand
    rw [← hk, hnn, roundHalfEven_mul hd']
  rw [hs]
  push_cast
  rw [two_pow_toNat (by omega), mul_assoc, ← zpow_add₀ (by norm_num)]
  congr 2
  omega

/-- A product by a constant whose exact value is a binary64 value is that value, or overflows. -/
theorem mulNat_exact (m : Nat) (e : Int) (c : Nat) (hc : 0 < c) (a : Nat) (e' : Int) (hm : 0 < m) (ha : a < 2 ^ 53)
    (he : -1074 ≤ e') (hv : (m : ℚ) * 2 ^ e * c = a * 2 ^ e') :
    (NonNeg64.mulNat (.fin m e) c = .inf ∧ (2 : ℚ) ^ 1024 ≤ a * 2 ^ e') ∨
    ∃ m1 e1, NonNeg64.mulNat (.fin m e) c = .fin m1 e1 ∧ (m1 : ℚ) * 2 ^ e1 = a * 2 ^ e' ∧
      (a : ℚ) * 2 ^ e' < 2 ^ 1024 := by
  have hval : ((numOf m e * c : Nat) : ℚ) / denOf e = a * 2 ^ e' := by
    rw [← hv, ← numOf_div_denOf]
    push_cast
    ring
  have hn : 0 < numOf m e * c := Nat.mul_pos (numOf_pos e hm) hc
  rw [← roundedValue_exact _ _ a e' hn (denOf_pos e) ha he hval]
  exact roundToBinary64_cases _ _ hn

/-- The fields of a pattern, by its number. -/
theorem exponentField_eq (f : BitVec 64) : exponentField f = f.toNat / 2 ^ 52 % 2048 := by
  simp [exponentField, BitVec.extractLsb'_toNat, Nat.shiftRight_eq_div_pow]

theorem fractionField_eq (f : BitVec 64) : fractionField f = f.toNat % 2 ^ 52 := by
  simp [fractionField, BitVec.extractLsb'_toNat]

/-- The significand and the exponent of a legal frequency. -/
theorem significandOf_bounds {f : BitVec 64} (h : legalFrequency f = true) :
    0 < significandOf f ∧ significandOf f < 2 ^ 53 ∧ -1074 ≤ exponentOf f := by
  have hx : fractionField f < 2 ^ 52 := by
    unfold fractionField
    exact BitVec.isLt _
  unfold significandOf exponentOf
  unfold legalFrequency at h
  simp at h
  split <;> omega

/-- `floor` of a finite value, by its value. -/
theorem le_floor_iff (m : Nat) (k : Int) (j : Nat) : j ≤ numOf m k / denOf k ↔ (j : ℚ) ≤ m * 2 ^ k := by
  rw [Nat.le_div_iff_mul_le (denOf_pos k), ← numOf_div_denOf, le_div_iff₀ (by exact_mod_cast denOf_pos k)]
  exact_mod_cast Iff.rfl

end Sys2Proof.Machine
end

