-- ==== Sys2Proof/Laws/Memory.lean ====
section
/-! SUPPORT. The laws of STREAM's list of cells: a read after a write, and every operation keeps the canonical form. -/

namespace Sys2Proof.Machine.Memory

@[simp] theorem read_nil (a : Nat) : read [] a = unlisted := rfl

theorem read_cons_cell (k : Nat) (b : Byte) (m : Memory) (a : Nat) :
    read ((k, b) :: m) a = if k = a then b else read m a := rfl

/-- Nothing is listed below the first index allowed. -/
theorem read_below {lo : Nat} {m : Memory} (h : wfFrom lo m = true) {a : Nat} (ha : a < lo) :
    read m a = unlisted := by
  induction m generalizing lo with
  | nil => rfl
  | cons c m ih =>
    obtain ⟨k, b⟩ := c
    simp only [wfFrom, Bool.and_eq_true, decide_eq_true_eq] at h
    rw [read_cons_cell, if_neg (by omega)]
    exact ih h.2 (by omega)

theorem wfFrom_mono {lo lo' : Nat} {m : Memory} (h : wfFrom lo m = true) (hle : lo' ≤ lo) : wfFrom lo' m = true := by
  cases m with
  | nil => rfl
  | cons c m =>
    simp only [wfFrom, Bool.and_eq_true, decide_eq_true_eq] at h ⊢
    exact ⟨⟨by omega, h.1.2⟩, h.2⟩

/-- A listed cell is at or above the first index allowed. -/
theorem le_of_mem {lo : Nat} {m : Memory} (h : wfFrom lo m = true) {c : Host.Cell} (hc : c ∈ m) : lo ≤ c.1 := by
  induction m generalizing lo with
  | nil => simp at hc
  | cons d m ih =>
    simp only [wfFrom, Bool.and_eq_true, decide_eq_true_eq] at h
    rcases List.mem_cons.mp hc with rfl | hm
    · exact h.1.1
    · exact le_trans (le_trans h.1.1 (Nat.le_succ _)) (ih h.2 hm)

/-! `cons` -/

theorem read_cons {a : Nat} {b : Byte} {m : Memory} (h : wfFrom (a + 1) m = true) (x : Nat) :
    read (cons a b m) x = if x = a then b else read m x := by
  unfold cons
  by_cases hb : b = unlisted
  · by_cases hx : x = a
    · subst hx; simp [hb, read_below h (Nat.lt_succ_self x)]
    · simp [hb, hx]
  · simp only [hb, if_false, read_cons_cell, eq_comm (a := x)]

theorem wf_cons {lo a : Nat} {b : Byte} {m : Memory} (hlo : lo ≤ a) (h : wfFrom (a + 1) m = true) :
    wfFrom lo (cons a b m) = true := by
  unfold cons
  split
  · exact wfFrom_mono h (by omega)
  · simp_all [wfFrom]

theorem mem_cons {a : Nat} {b : Byte} {m : Memory} {c : Host.Cell} (h : c ∈ cons a b m) : c = (a, b) ∨ c ∈ m := by
  unfold cons at h
  split at h
  · exact .inr h
  · exact List.mem_cons.mp h

/-! `write` -/

theorem wfFrom_write {lo : Nat} {m : Memory} (h : wfFrom lo m = true) {a : Nat} (ha : lo ≤ a) (b : Byte) :
    wfFrom lo (write m a b) = true := by
  induction m generalizing lo with
  | nil => exact wf_cons ha rfl
  | cons c m ih =>
    obtain ⟨k, d⟩ := c
    have h' := h
    simp only [wfFrom, Bool.and_eq_true, decide_eq_true_eq] at h
    simp only [write]
    split
    · refine wf_cons ha ?_
      simp only [wfFrom, Bool.and_eq_true, decide_eq_true_eq]
      exact ⟨⟨by omega, h.1.2⟩, h.2⟩
    · split
      · exact wf_cons ha (by simp_all)
      · simp only [wfFrom, Bool.and_eq_true, decide_eq_true_eq]
        exact ⟨h.1, ih h.2 (by omega)⟩

/-- Writing one byte keeps the canonical form. -/
theorem wf_write {m : Memory} (h : wf m = true) (a : Nat) (b : Byte) : wf (write m a b) = true :=
  wfFrom_write h (Nat.zero_le a) b

theorem read_writeFrom {lo : Nat} {m : Memory} (h : wfFrom lo m = true) (a : Nat) (b : Byte) (x : Nat) :
    read (write m a b) x = if x = a then b else read m x := by
  induction m generalizing lo with
  | nil => exact read_cons (m := []) rfl x
  | cons c m ih =>
    obtain ⟨k, d⟩ := c
    simp only [wfFrom, Bool.and_eq_true, decide_eq_true_eq] at h
    simp only [write]
    split
    · refine read_cons ?_ x
      simp only [wfFrom, Bool.and_eq_true, decide_eq_true_eq]
      exact ⟨⟨by omega, h.1.2⟩, h.2⟩
    · split
      · rename_i hk
        subst hk
        rw [read_cons h.2, read_cons_cell]
        by_cases hx : x = a
        · simp [hx]
        · simp [hx, Ne.symm hx]
      · rw [read_cons_cell, read_cons_cell, ih h.2]
        by_cases hx : k = x
        · have : x ≠ a := by omega
          simp [hx, this]
        · simp [hx]

/-- A read after a write: the written byte there, every other byte as before. -/
theorem read_write {m : Memory} (h : wf m = true) (a : Nat) (b : Byte) (x : Nat) :
    read (write m a b) x = if x = a then b else read m x := read_writeFrom h a b x

/-! `writeAll` -/

theorem wf_writeAll {m : Memory} (h : wf m = true) (a : Nat) (bs : List Byte) : wf (writeAll m a bs) = true := by
  induction bs generalizing m a with
  | nil => exact h
  | cons b bs ih => exact ih (wf_write h a b) (a + 1)

/-! `ofBytes` -/

theorem wfFrom_ofBytes (a : Nat) (bs : List Byte) : wfFrom a (ofBytes a bs) = true := by
  induction bs generalizing a with
  | nil => rfl
  | cons b bs ih => exact wf_cons (Nat.le_refl a) (ih (a + 1))

/-- An installed payload is in the canonical form. -/
theorem wf_ofBytes (a : Nat) (bs : List Byte) : wf (ofBytes a bs) = true :=
  wfFrom_mono (wfFrom_ofBytes a bs) (Nat.zero_le a)

/-- Index `a + k` of an installed payload holds its byte `k` (R33). -/
theorem read_ofBytes (a k : Nat) (bs : List Byte) : read (ofBytes a bs) (a + k) = bs.getD k unlisted := by
  induction bs generalizing a k with
  | nil => rfl
  | cons b bs ih =>
    rw [ofBytes, read_cons (wfFrom_ofBytes (a + 1) bs)]
    cases k with
    | zero => simp
    | succ k =>
      rw [if_neg (by omega), show a + (k + 1) = (a + 1) + k by omega, ih]
      simp

theorem lt_of_mem_ofBytes {a : Nat} {bs : List Byte} {c : Host.Cell} (h : c ∈ ofBytes a bs) :
    c.1 < a + bs.length := by
  induction bs generalizing a with
  | nil => simp [ofBytes] at h
  | cons b bs ih =>
    rcases mem_cons h with rfl | hm
    · simp
    · have := ih hm
      simp only [List.length_cons]
      omega

/-! `readBytes` -/

@[simp] theorem readBytes_zero (m : Memory) (a : Nat) : readBytes m a 0 = [] := rfl

theorem readBytes_succ (m : Memory) (a n : Nat) : readBytes m a (n + 1) = read m a :: readBytes m (a + 1) n := rfl

@[simp] theorem length_readBytes (m : Memory) (a n : Nat) : (readBytes m a n).length = n := by
  induction n generalizing a with
  | zero => rfl
  | succ n ih => simp [readBytes_succ, ih]

end Sys2Proof.Machine.Memory
end

