-- ==== Sys2Proof/Laws/State.lean ====
section
/-! SUPPORT. What each shared update of State leaves in every field, one lemma a field, so that no later proof unfolds a
record update. -/

namespace Sys2Proof.Machine

/-! `busWrite` -/

@[simp] theorem busWrite_offset (s : State) (b : Byte) : (busWrite s b).offset = s.offset := rfl
@[simp] theorem busWrite_ticks (s : State) (b : Byte) : (busWrite s b).ticks = s.ticks := rfl
@[simp] theorem busWrite_finished (s : State) (b : Byte) : (busWrite s b).finished = s.finished := rfl
@[simp] theorem busWrite_buf (s : State) (b : Byte) : (busWrite s b).buf = s.buf := rfl
@[simp] theorem busWrite_len (s : State) (b : Byte) : (busWrite s b).len = s.len := rfl
@[simp] theorem busWrite_loopValid (s : State) (b : Byte) : (busWrite s b).loopValid = s.loopValid := rfl
@[simp] theorem busWrite_loopOffset (s : State) (b : Byte) : (busWrite s b).loopOffset = s.loopOffset := rfl
@[simp] theorem busWrite_phase (s : State) (b : Byte) : (busWrite s b).phase = s.phase := rfl
@[simp] theorem busWrite_wOffset (s : State) (b : Byte) : (busWrite s b).wOffset = s.wOffset := rfl
@[simp] theorem busWrite_wTicks (s : State) (b : Byte) : (busWrite s b).wTicks = s.wTicks := rfl
@[simp] theorem busWrite_wFin (s : State) (b : Byte) : (busWrite s b).wFin = s.wFin := rfl
@[simp] theorem busWrite_bus (s : State) (b : Byte) : (busWrite s b).bus = s.bus ++ [b] := rfl
@[simp] theorem busWrite_results (s : State) (b : Byte) : (busWrite s b).results = s.results := rfl
@[simp] theorem busWrite_requests (s : State) (b : Byte) : (busWrite s b).requests = s.requests := rfl
@[simp] theorem busWrite_params (s : State) (b : Byte) : (busWrite s b).params = s.params := rfl
@[simp] theorem busWrite_draws (s : State) (b : Byte) : (busWrite s b).draws = s.draws := rfl

/-! `report` -/

@[simp] theorem report_offset (s : State) (op : OpKind) (r : OpResult) : (report op r s).offset = s.offset := rfl
@[simp] theorem report_ticks (s : State) (op : OpKind) (r : OpResult) : (report op r s).ticks = s.ticks := rfl
@[simp] theorem report_finished (s : State) (op : OpKind) (r : OpResult) : (report op r s).finished = s.finished := rfl
@[simp] theorem report_buf (s : State) (op : OpKind) (r : OpResult) : (report op r s).buf = s.buf := rfl
@[simp] theorem report_len (s : State) (op : OpKind) (r : OpResult) : (report op r s).len = s.len := rfl
@[simp] theorem report_loopValid (s : State) (op : OpKind) (r : OpResult) : (report op r s).loopValid = s.loopValid := rfl
@[simp] theorem report_loopOffset (s : State) (op : OpKind) (r : OpResult) : (report op r s).loopOffset = s.loopOffset := rfl
@[simp] theorem report_phase (s : State) (op : OpKind) (r : OpResult) : (report op r s).phase = s.phase := rfl
@[simp] theorem report_wOffset (s : State) (op : OpKind) (r : OpResult) : (report op r s).wOffset = s.wOffset := rfl
@[simp] theorem report_wTicks (s : State) (op : OpKind) (r : OpResult) : (report op r s).wTicks = s.wTicks := rfl
@[simp] theorem report_wFin (s : State) (op : OpKind) (r : OpResult) : (report op r s).wFin = s.wFin := rfl
@[simp] theorem report_bus (s : State) (op : OpKind) (r : OpResult) : (report op r s).bus = s.bus := rfl
@[simp] theorem report_results (s : State) (op : OpKind) (r : OpResult) : (report op r s).results = s.results ++ [{ op := op, result := r, busLen := s.bus.length }] := rfl
@[simp] theorem report_requests (s : State) (op : OpKind) (r : OpResult) : (report op r s).requests = s.requests := rfl
@[simp] theorem report_params (s : State) (op : OpKind) (r : OpResult) : (report op r s).params = s.params := rfl
@[simp] theorem report_draws (s : State) (op : OpKind) (r : OpResult) : (report op r s).draws = s.draws := rfl

/-! `leaveFrame` -/

@[simp] theorem leaveFrame_offset (s : State) : (leaveFrame s).offset = s.offset := rfl
@[simp] theorem leaveFrame_ticks (s : State) : (leaveFrame s).ticks = s.ticks := rfl
@[simp] theorem leaveFrame_finished (s : State) : (leaveFrame s).finished = s.finished := rfl
@[simp] theorem leaveFrame_buf (s : State) : (leaveFrame s).buf = s.buf := rfl
@[simp] theorem leaveFrame_len (s : State) : (leaveFrame s).len = s.len := rfl
@[simp] theorem leaveFrame_loopValid (s : State) : (leaveFrame s).loopValid = s.loopValid := rfl
@[simp] theorem leaveFrame_loopOffset (s : State) : (leaveFrame s).loopOffset = s.loopOffset := rfl
@[simp] theorem leaveFrame_phase (s : State) : (leaveFrame s).phase = .idle := rfl
@[simp] theorem leaveFrame_wOffset (s : State) : (leaveFrame s).wOffset = Config.freeOffset s.draws % 2 ^ s.params.aw := rfl
@[simp] theorem leaveFrame_wTicks (s : State) : (leaveFrame s).wTicks = Config.freeTicks s.draws := rfl
@[simp] theorem leaveFrame_wFin (s : State) : (leaveFrame s).wFin = Config.freeFlag s.draws := rfl
@[simp] theorem leaveFrame_bus (s : State) : (leaveFrame s).bus = s.bus := rfl
@[simp] theorem leaveFrame_results (s : State) : (leaveFrame s).results = s.results := rfl
@[simp] theorem leaveFrame_requests (s : State) : (leaveFrame s).requests = s.requests := rfl
@[simp] theorem leaveFrame_params (s : State) : (leaveFrame s).params = s.params := rfl
@[simp] theorem leaveFrame_draws (s : State) : (leaveFrame s).draws = s.draws + 1 := rfl

/-! `clearLoop` -/

@[simp] theorem clearLoop_offset (s : State) : (clearLoop s).offset = s.offset := rfl
@[simp] theorem clearLoop_ticks (s : State) : (clearLoop s).ticks = s.ticks := rfl
@[simp] theorem clearLoop_finished (s : State) : (clearLoop s).finished = s.finished := rfl
@[simp] theorem clearLoop_buf (s : State) : (clearLoop s).buf = s.buf := rfl
@[simp] theorem clearLoop_len (s : State) : (clearLoop s).len = s.len := rfl
@[simp] theorem clearLoop_loopValid (s : State) : (clearLoop s).loopValid = false := rfl
@[simp] theorem clearLoop_loopOffset (s : State) : (clearLoop s).loopOffset = Config.freeLoopOffset s.draws % 2 ^ s.params.aw := rfl
@[simp] theorem clearLoop_phase (s : State) : (clearLoop s).phase = s.phase := rfl
@[simp] theorem clearLoop_wOffset (s : State) : (clearLoop s).wOffset = s.wOffset := rfl
@[simp] theorem clearLoop_wTicks (s : State) : (clearLoop s).wTicks = s.wTicks := rfl
@[simp] theorem clearLoop_wFin (s : State) : (clearLoop s).wFin = s.wFin := rfl
@[simp] theorem clearLoop_bus (s : State) : (clearLoop s).bus = s.bus := rfl
@[simp] theorem clearLoop_results (s : State) : (clearLoop s).results = s.results := rfl
@[simp] theorem clearLoop_requests (s : State) : (clearLoop s).requests = s.requests := rfl
@[simp] theorem clearLoop_params (s : State) : (clearLoop s).params = s.params := rfl
@[simp] theorem clearLoop_draws (s : State) : (clearLoop s).draws = s.draws + 1 := rfl

/-! `setFin` -/

@[simp] theorem setFin_offset (s : State) : (setFin s).offset = s.offset := rfl
@[simp] theorem setFin_ticks (s : State) : (setFin s).ticks = s.ticks := rfl
@[simp] theorem setFin_finished (s : State) : (setFin s).finished = s.finished := rfl
@[simp] theorem setFin_buf (s : State) : (setFin s).buf = s.buf := rfl
@[simp] theorem setFin_len (s : State) : (setFin s).len = s.len := rfl
@[simp] theorem setFin_loopValid (s : State) : (setFin s).loopValid = s.loopValid := rfl
@[simp] theorem setFin_loopOffset (s : State) : (setFin s).loopOffset = s.loopOffset := rfl
@[simp] theorem setFin_phase (s : State) : (setFin s).phase = s.phase := rfl
@[simp] theorem setFin_wOffset (s : State) : (setFin s).wOffset = s.wOffset := rfl
@[simp] theorem setFin_wTicks (s : State) : (setFin s).wTicks = s.wTicks := rfl
@[simp] theorem setFin_wFin (s : State) : (setFin s).wFin = true := rfl
@[simp] theorem setFin_bus (s : State) : (setFin s).bus = s.bus := rfl
@[simp] theorem setFin_results (s : State) : (setFin s).results = s.results := rfl
@[simp] theorem setFin_requests (s : State) : (setFin s).requests = s.requests := rfl
@[simp] theorem setFin_params (s : State) : (setFin s).params = s.params := rfl
@[simp] theorem setFin_draws (s : State) : (setFin s).draws = s.draws := rfl

/-! `enterDecode` -/

@[simp] theorem enterDecode_offset (s : State) (t : Ticks) : (enterDecode t s).offset = s.offset := rfl
@[simp] theorem enterDecode_ticks (s : State) (t : Ticks) : (enterDecode t s).ticks = s.ticks := rfl
@[simp] theorem enterDecode_finished (s : State) (t : Ticks) : (enterDecode t s).finished = s.finished := rfl
@[simp] theorem enterDecode_buf (s : State) (t : Ticks) : (enterDecode t s).buf = s.buf := rfl
@[simp] theorem enterDecode_len (s : State) (t : Ticks) : (enterDecode t s).len = s.len := rfl
@[simp] theorem enterDecode_loopValid (s : State) (t : Ticks) : (enterDecode t s).loopValid = s.loopValid := rfl
@[simp] theorem enterDecode_loopOffset (s : State) (t : Ticks) : (enterDecode t s).loopOffset = s.loopOffset := rfl
@[simp] theorem enterDecode_phase (s : State) (t : Ticks) : (enterDecode t s).phase = .decode := rfl
@[simp] theorem enterDecode_wOffset (s : State) (t : Ticks) : (enterDecode t s).wOffset = s.offset := rfl
@[simp] theorem enterDecode_wTicks (s : State) (t : Ticks) : (enterDecode t s).wTicks = t := rfl
@[simp] theorem enterDecode_wFin (s : State) (t : Ticks) : (enterDecode t s).wFin = false := rfl
@[simp] theorem enterDecode_bus (s : State) (t : Ticks) : (enterDecode t s).bus = s.bus := rfl
@[simp] theorem enterDecode_results (s : State) (t : Ticks) : (enterDecode t s).results = s.results := rfl
@[simp] theorem enterDecode_requests (s : State) (t : Ticks) : (enterDecode t s).requests = s.requests := rfl
@[simp] theorem enterDecode_params (s : State) (t : Ticks) : (enterDecode t s).params = s.params := rfl
@[simp] theorem enterDecode_draws (s : State) (t : Ticks) : (enterDecode t s).draws = s.draws := rfl

/-! `busWriteAll`: only the trace changes, by the bytes in order (R38). -/

theorem busWriteAll_eq (s : State) (bs : List Byte) : busWriteAll s bs = { s with bus := s.bus ++ bs } := by
  induction bs generalizing s with
  | nil => simp [busWriteAll]
  | cons b bs ih => simp [busWriteAll, ih, busWrite]

@[simp] theorem busWriteAll_offset (s : State) (bs : List Byte) : (busWriteAll s bs).offset = s.offset := by
  rw [busWriteAll_eq]
@[simp] theorem busWriteAll_ticks (s : State) (bs : List Byte) : (busWriteAll s bs).ticks = s.ticks := by
  rw [busWriteAll_eq]
@[simp] theorem busWriteAll_finished (s : State) (bs : List Byte) : (busWriteAll s bs).finished = s.finished := by
  rw [busWriteAll_eq]
@[simp] theorem busWriteAll_buf (s : State) (bs : List Byte) : (busWriteAll s bs).buf = s.buf := by
  rw [busWriteAll_eq]
@[simp] theorem busWriteAll_len (s : State) (bs : List Byte) : (busWriteAll s bs).len = s.len := by
  rw [busWriteAll_eq]
@[simp] theorem busWriteAll_loopValid (s : State) (bs : List Byte) : (busWriteAll s bs).loopValid = s.loopValid := by
  rw [busWriteAll_eq]
@[simp] theorem busWriteAll_loopOffset (s : State) (bs : List Byte) : (busWriteAll s bs).loopOffset = s.loopOffset := by
  rw [busWriteAll_eq]
@[simp] theorem busWriteAll_phase (s : State) (bs : List Byte) : (busWriteAll s bs).phase = s.phase := by
  rw [busWriteAll_eq]
@[simp] theorem busWriteAll_wOffset (s : State) (bs : List Byte) : (busWriteAll s bs).wOffset = s.wOffset := by
  rw [busWriteAll_eq]
@[simp] theorem busWriteAll_wTicks (s : State) (bs : List Byte) : (busWriteAll s bs).wTicks = s.wTicks := by
  rw [busWriteAll_eq]
@[simp] theorem busWriteAll_wFin (s : State) (bs : List Byte) : (busWriteAll s bs).wFin = s.wFin := by
  rw [busWriteAll_eq]
@[simp] theorem busWriteAll_bus (s : State) (bs : List Byte) : (busWriteAll s bs).bus = s.bus ++ bs := by
  rw [busWriteAll_eq]
@[simp] theorem busWriteAll_results (s : State) (bs : List Byte) : (busWriteAll s bs).results = s.results := by
  rw [busWriteAll_eq]
@[simp] theorem busWriteAll_requests (s : State) (bs : List Byte) : (busWriteAll s bs).requests = s.requests := by
  rw [busWriteAll_eq]
@[simp] theorem busWriteAll_params (s : State) (bs : List Byte) : (busWriteAll s bs).params = s.params := by
  rw [busWriteAll_eq]
@[simp] theorem busWriteAll_draws (s : State) (bs : List Byte) : (busWriteAll s bs).draws = s.draws := by
  rw [busWriteAll_eq]

/-! `resetPlayback` (R161) -/

@[simp] theorem resetPlayback_offset (s : State) : (resetPlayback s).offset = 0 := by
  simp [resetPlayback]
@[simp] theorem resetPlayback_ticks (s : State) : (resetPlayback s).ticks = 0#32 := by
  simp [resetPlayback]
@[simp] theorem resetPlayback_finished (s : State) : (resetPlayback s).finished = false := by
  simp [resetPlayback]
@[simp] theorem resetPlayback_buf (s : State) : (resetPlayback s).buf = s.buf := by
  simp [resetPlayback]
@[simp] theorem resetPlayback_len (s : State) : (resetPlayback s).len = s.len := by
  simp [resetPlayback]
@[simp] theorem resetPlayback_loopValid (s : State) : (resetPlayback s).loopValid = s.loopValid := by
  simp [resetPlayback]
@[simp] theorem resetPlayback_loopOffset (s : State) : (resetPlayback s).loopOffset = s.loopOffset := by
  simp [resetPlayback]
@[simp] theorem resetPlayback_phase (s : State) : (resetPlayback s).phase = s.phase := by
  simp [resetPlayback]
@[simp] theorem resetPlayback_wOffset (s : State) : (resetPlayback s).wOffset = s.wOffset := by
  simp [resetPlayback]
@[simp] theorem resetPlayback_wTicks (s : State) : (resetPlayback s).wTicks = s.wTicks := by
  simp [resetPlayback]
@[simp] theorem resetPlayback_wFin (s : State) : (resetPlayback s).wFin = s.wFin := by
  simp [resetPlayback]
@[simp] theorem resetPlayback_bus (s : State) : (resetPlayback s).bus = s.bus ++ Config.resetSeq := by
  simp [resetPlayback]
@[simp] theorem resetPlayback_results (s : State) : (resetPlayback s).results = s.results := by
  simp [resetPlayback]
@[simp] theorem resetPlayback_requests (s : State) : (resetPlayback s).requests = s.requests := by
  simp [resetPlayback]
@[simp] theorem resetPlayback_params (s : State) : (resetPlayback s).params = s.params := by
  simp [resetPlayback]
@[simp] theorem resetPlayback_draws (s : State) : (resetPlayback s).draws = s.draws := by
  simp [resetPlayback]

/-! `raise` (R140) -/

@[simp] theorem raise_offset (s : State) (op : OpKind) (e : ErrorKind) : (raise op e s).offset = s.offset := rfl
@[simp] theorem raise_ticks (s : State) (op : OpKind) (e : ErrorKind) : (raise op e s).ticks = s.ticks := rfl
@[simp] theorem raise_finished (s : State) (op : OpKind) (e : ErrorKind) : (raise op e s).finished = s.finished := rfl
@[simp] theorem raise_buf (s : State) (op : OpKind) (e : ErrorKind) : (raise op e s).buf = s.buf := rfl
@[simp] theorem raise_len (s : State) (op : OpKind) (e : ErrorKind) : (raise op e s).len = s.len := rfl
@[simp] theorem raise_loopValid (s : State) (op : OpKind) (e : ErrorKind) : (raise op e s).loopValid = s.loopValid := rfl
@[simp] theorem raise_loopOffset (s : State) (op : OpKind) (e : ErrorKind) : (raise op e s).loopOffset = s.loopOffset := rfl
@[simp] theorem raise_phase (s : State) (op : OpKind) (e : ErrorKind) : (raise op e s).phase = .idle := rfl
@[simp] theorem raise_wOffset (s : State) (op : OpKind) (e : ErrorKind) : (raise op e s).wOffset = Config.freeOffset s.draws % 2 ^ s.params.aw := rfl
@[simp] theorem raise_wTicks (s : State) (op : OpKind) (e : ErrorKind) : (raise op e s).wTicks = Config.freeTicks s.draws := rfl
@[simp] theorem raise_wFin (s : State) (op : OpKind) (e : ErrorKind) : (raise op e s).wFin = Config.freeFlag s.draws := rfl
@[simp] theorem raise_bus (s : State) (op : OpKind) (e : ErrorKind) : (raise op e s).bus = s.bus := rfl
@[simp] theorem raise_results (s : State) (op : OpKind) (e : ErrorKind) : (raise op e s).results = s.results ++ [{ op := op, result := .error e, busLen := s.bus.length }] := rfl
@[simp] theorem raise_requests (s : State) (op : OpKind) (e : ErrorKind) : (raise op e s).requests = s.requests := rfl
@[simp] theorem raise_params (s : State) (op : OpKind) (e : ErrorKind) : (raise op e s).params = s.params := rfl
@[simp] theorem raise_draws (s : State) (op : OpKind) (e : ErrorKind) : (raise op e s).draws = s.draws + 1 := rfl

/-! `commit` (R78) -/

@[simp] theorem commit_offset (s : State) : (commit s).offset = s.wOffset := rfl
@[simp] theorem commit_ticks (s : State) : (commit s).ticks = s.wTicks := rfl
@[simp] theorem commit_finished (s : State) : (commit s).finished = s.wFin := rfl
@[simp] theorem commit_buf (s : State) : (commit s).buf = s.buf := rfl
@[simp] theorem commit_len (s : State) : (commit s).len = s.len := rfl
@[simp] theorem commit_loopValid (s : State) : (commit s).loopValid = s.loopValid := rfl
@[simp] theorem commit_loopOffset (s : State) : (commit s).loopOffset = s.loopOffset := rfl
@[simp] theorem commit_phase (s : State) : (commit s).phase = .idle := rfl
@[simp] theorem commit_wOffset (s : State) : (commit s).wOffset = Config.freeOffset s.draws % 2 ^ s.params.aw := rfl
@[simp] theorem commit_wTicks (s : State) : (commit s).wTicks = Config.freeTicks s.draws := rfl
@[simp] theorem commit_wFin (s : State) : (commit s).wFin = Config.freeFlag s.draws := rfl
@[simp] theorem commit_bus (s : State) : (commit s).bus = s.bus := rfl
@[simp] theorem commit_results (s : State) : (commit s).results = s.results ++ [{ op := .frame, result := .ok, busLen := s.bus.length }] := rfl
@[simp] theorem commit_requests (s : State) : (commit s).requests = s.requests := rfl
@[simp] theorem commit_params (s : State) : (commit s).params = s.params := rfl
@[simp] theorem commit_draws (s : State) : (commit s).draws = s.draws + 1 := rfl

end Sys2Proof.Machine
end

