-- ==== Sys2Proof/Laws/Ops.lean ====
section
/-! SUPPORT. What each shared operation can do, said once. -/

namespace Sys2Proof.Machine

/-! Tick arithmetic (R13). -/

theorem toInt_ofInt_of_fits {v : Int} (hlo : -2 ^ 31 ≤ v) (hhi : v < 2 ^ 31) : (BitVec.ofInt 32 v).toInt = v := by
  rw [BitVec.toInt_ofInt]
  exact Int.bmod_eq_of_le (by omega) (by omega)

theorem ticks_bounds (t : Ticks) : -2 ^ 31 ≤ t.toInt ∧ t.toInt < 2 ^ 31 := ⟨t.le_toInt, t.toInt_lt⟩

/-- A narrowed value is the exact one. -/
theorem narrowTicks_some {v : Int} {t : Ticks} (h : narrowTicks v = some t) : t.toInt = v := by
  unfold narrowTicks at h
  split at h
  · next hv =>
    cases h
    exact toInt_ofInt_of_fits hv.1 hv.2
  · cases h

theorem narrowTicks_fits {v : Int} (hlo : -2 ^ 31 ≤ v) (hhi : v < 2 ^ 31) :
    narrowTicks v = some (BitVec.ofInt 32 v) := if_pos ⟨hlo, hhi⟩

theorem narrowTicks_none {v : Int} : narrowTicks v = none ↔ v < -2 ^ 31 ∨ 2 ^ 31 ≤ v := by
  unfold narrowTicks
  split <;> simp <;> omega

/-- If the addition to W_TICKS goes on, it goes on with the exact sum. -/
theorem withWTicks_next {s t : State} {v : Int} {k : State → Result} (h : withWTicks s v k = .next t) :
    ∃ w : Ticks, w.toInt = v ∧ k { s with wTicks := w } = .next t := by
  unfold withWTicks at h
  split at h
  · next w hw => exact ⟨w, narrowTicks_some hw, h⟩
  · cases h

theorem framesOf_le (n : BitVec 16) : framesOf n ≤ 89 := by
  have := n.isLt
  unfold framesOf Config.samplesPerFrame
  omega

/-! The encoder's rows (R116, R118, R120). -/

/-- Executing a PSG output row writes its byte and does nothing else. -/
theorem exec_psgRow {i : Instr} (h : i.inStream = false) (s : State) :
    exec i s = .next (busWriteAll s (encode s.params i)) := by
  cases i <;> first | rfl | cases h

/-- Executing rows writes their bytes in order and does nothing else. -/
theorem emitRows_eq {is : List Instr} (h : ∀ i ∈ is, i.inStream = false) (s : State) :
    emitRows is s = .next (busWriteAll s (is.flatMap (encode s.params))) := by
  induction is generalizing s with
  | nil => rfl
  | cons i is ih =>
    have hi := h i (by simp)
    rw [emitRows, exec_psgRow hi]
    simp only
    rw [ih (fun j hj => h j (by simp [hj]))]
    simp [busWriteAll_eq]

/-- An encoder operation outside its ranges reports OutOfRange and does nothing else. -/
theorem encoderOp_error (op : OpKind) (e : ErrorKind) (s : State) :
    encoderOp op (.error e) s = .next (raise op e s) := rfl

/-- An encoder operation whose rows are all PSG output rows writes their bytes and reports success. -/
theorem encoderOp_ok (op : OpKind) {is : List Instr} (h : ∀ i ∈ is, i.inStream = false) (s : State) :
    encoderOp op (.ok is) s = .next (report op .ok (busWriteAll s (is.flatMap (encode s.params)))) := by
  simp [encoderOp, emitRows_eq h]

/-- Every next state of an encoder operation is one of the two. -/
theorem encoderOp_cases {op : OpKind} {rows : Except ErrorKind (List Instr)} {s t : State}
    (hr : ∀ is, rows = .ok is → ∀ i ∈ is, i.inStream = false) (h : encoderOp op rows s = .next t) :
    (∃ e, t = raise op e s) ∨ (∃ bs, t = report op .ok (busWriteAll s bs)) := by
  cases rows with
  | error e =>
    cases h
    exact .inl ⟨e, rfl⟩
  | ok is =>
    rw [encoderOp_ok op (hr is rfl)] at h
    cases h
    exact .inr ⟨_, rfl⟩

theorem frequencyRows_psg {a : FreqArith} {ch : Int} {f : BitVec 64} {is : List Instr}
    (h : frequencyRows a ch f = .ok is) : ∀ i ∈ is, i.inStream = false := by
  unfold frequencyRows at h
  split at h
  · cases h
  · split at h
    · cases h
    · cases h
      simp [toneRows, Instr.inStream]

theorem volumeRows_psg {ch vol : Int} {is : List Instr} (h : volumeRows ch vol = .ok is) :
    ∀ i ∈ is, i.inStream = false := by
  unfold volumeRows at h
  split at h
  · cases h
  · split at h
    · cases h
    · cases h
      simp [Instr.inStream]

theorem noiseRows_psg {mode rate : Int} {is : List Instr} (h : noiseRows mode rate = .ok is) :
    ∀ i ∈ is, i.inStream = false := by
  unfold noiseRows at h
  split at h
  · cases h
  · split at h
    · cases h
    · cases h
      simp [Instr.inStream]

/-! The loader (R171). -/

theorem readExact_some {n : Nat} {io : Bool} {bs p r : List Byte} (h : readExact n io bs = some (p, r)) :
    p.length = n ∧ bs = p ++ r := by
  unfold readExact at h
  split at h
  · cases h
  · next hn =>
    cases h
    simp only [not_or, not_lt] at hn
    simp [hn.2]

/-- What a header outside no precondition satisfies (R168). -/
theorem headerRefusal_none {aw : Nat} {h : List Byte} (hr : headerRefusal aw h = none) :
    60 ≤ eofOffset h ∧ payloadLength h < 2 ^ aw ∧
      (loopValue h ≠ 0 → 0x24 ≤ loopValue h ∧ loopIndex h ≤ payloadLength h) := by
  unfold headerRefusal at hr
  split_ifs at hr with h1 h2 h3 h4 h5
  · exact ⟨by omega, by omega, fun h => absurd h3 h⟩
  · exact ⟨by omega, by omega, fun _ => ⟨by omega, by omega⟩⟩

/-- A song that is read has a payload that fits AW bits and a loop index at or below its length (R168). -/
theorem readSong_song {aw : Nat} {src : ByteSource} {v : Song} (h : readSong aw src = .song v) :
    v.payload.length < 2 ^ aw ∧ ∀ k, v.loop = some k → k ≤ v.payload.length := by
  unfold readSong at h
  split at h
  · cases h
  · split at h
    · cases h
    · split at h
      · cases h
      · next hr =>
        split at h
        · cases h
        · next hp =>
          obtain ⟨-, hw, hl⟩ := headerRefusal_none hr
          cases h
          rw [(readExact_some hp).1]
          refine ⟨hw, fun k hk => ?_⟩
          split at hk
          · cases hk
          · next hz =>
            cases hk
            exact (hl hz).2

end Sys2Proof.Machine
end

