-- ==== Sys2Proof/Laws/PerInstr.lean ====
section
/-! SUPPORT. Statements made for every instruction, one lemma per constructor. -/

namespace Sys2Proof.Laws.EncodedBytes

/-- An instruction has one to three bytes (R51, R58), and it has a PSG format exactly when it is not a STREAM row
(R62). -/
def Statement (i : Instr) : Prop :=
  (∀ p : Params, 1 ≤ (encode p i).length ∧ (encode p i).length ≤ longestInstr) ∧
    (i.psgFormat? = none ↔ i.inStream = true)

theorem psgw (dd : Byte) : Statement (.psgw dd) := by simp [Statement, encode, longestInstr, Instr.psgFormat?, Instr.inStream]
theorem waitN (n : BitVec 16) : Statement (.waitN n) := by simp [Statement, encode, longestInstr, Instr.psgFormat?, Instr.inStream]
theorem wait1 : Statement .wait1 := by simp [Statement, encode, longestInstr, Instr.psgFormat?, Instr.inStream]
theorem endData : Statement .endData := by simp [Statement, encode, longestInstr, Instr.psgFormat?, Instr.inStream]
theorem illegal (b : Byte) : Statement (.illegal b) := by simp [Statement, encode, longestInstr, Instr.psgFormat?, Instr.inStream]
theorem pToneLatch (ch : BitVec 2) (lo : BitVec 4) : Statement (.pToneLatch ch lo) := by
  simp [Statement, encode, longestInstr, Instr.psgFormat?, Instr.inStream]
theorem pToneData (hi : BitVec 6) : Statement (.pToneData hi) := by
  simp [Statement, encode, longestInstr, Instr.psgFormat?, Instr.inStream]
theorem pVol (ch : BitVec 2) (att : BitVec 4) : Statement (.pVol ch att) := by
  simp [Statement, encode, longestInstr, Instr.psgFormat?, Instr.inStream]
theorem pNoise (mode : BitVec 1) (rate : BitVec 2) : Statement (.pNoise mode rate) := by
  simp [Statement, encode, longestInstr, Instr.psgFormat?, Instr.inStream]

end Sys2Proof.Laws.EncodedBytes
end

