-- ==== Sys2Proof/Laws/Step.lean ====
section
/-! SUPPORT. What a step can do: one inversion lemma for exec, one for a Turn, one for a request, one for the step. -/

namespace Sys2Proof.Machine

/-- Every next state of a row is one of these. -/
theorem exec_cases {i : Instr} {s t : State} (h : exec i s = .next t) :
    (∃ dd, i = .psgw dd ∧ s.wOffset + 2 ≤ s.len ∧ t = { busWrite s dd with wOffset := s.wOffset + 2 }) ∨
    (∃ n w, i = .waitN n ∧ s.wOffset + 3 ≤ s.len ∧ w.toInt = s.wTicks.toInt + framesOf n ∧
      t = commit { s with wTicks := w, wOffset := s.wOffset + 3 }) ∨
    (∃ w, i = .wait1 ∧ w.toInt = s.wTicks.toInt + 1 ∧ t = commit { s with wTicks := w, wOffset := s.wOffset + 1 }) ∨
    (i = .endData ∧ s.loopValid = true ∧ t = { s with wOffset := s.loopOffset }) ∨
    (i = .endData ∧ s.loopValid = false ∧ t = commit (setFin s)) ∨
    (∃ e, i.inStream = true ∧ t = raise .frame e s) ∨
    (i.inStream = false ∧ t = busWriteAll s (encode s.params i)) := by
  cases i with
  | psgw dd =>
    simp only [exec, execPsgw, bytesPresent, decide_eq_true_eq] at h
    split at h
    · next hp =>
      cases h
      exact .inl ⟨dd, rfl, hp, rfl⟩
    · cases h
      exact .inr (.inr (.inr (.inr (.inr (.inl ⟨_, rfl, rfl⟩)))))
  | waitN n =>
    simp only [exec, execWaitN, bytesPresent, decide_eq_true_eq] at h
    split at h
    · next hp =>
      obtain ⟨w, hw, hk⟩ := withWTicks_next h
      cases hk
      exact .inr (.inl ⟨n, w, rfl, hp, hw, rfl⟩)
    · cases h
      exact .inr (.inr (.inr (.inr (.inr (.inl ⟨_, rfl, rfl⟩)))))
  | wait1 =>
    simp only [exec, execWait1] at h
    obtain ⟨w, hw, hk⟩ := withWTicks_next h
    cases hk
    exact .inr (.inr (.inl ⟨w, rfl, hw, rfl⟩))
  | endData =>
    simp only [exec, execEndData] at h
    split at h
    · next hl =>
      cases h
      exact .inr (.inr (.inr (.inl ⟨rfl, hl, rfl⟩)))
    · next hl =>
      cases h
      exact .inr (.inr (.inr (.inr (.inl ⟨rfl, by simpa using hl, rfl⟩))))
  | illegal b =>
    cases h
    exact .inr (.inr (.inr (.inr (.inr (.inl ⟨_, rfl, rfl⟩)))))
  | pToneLatch ch lo =>
    cases h
    exact .inr (.inr (.inr (.inr (.inr (.inr ⟨rfl, rfl⟩)))))
  | pToneData hi =>
    cases h
    exact .inr (.inr (.inr (.inr (.inr (.inr ⟨rfl, rfl⟩)))))
  | pVol ch att =>
    cases h
    exact .inr (.inr (.inr (.inr (.inr (.inr ⟨rfl, rfl⟩)))))
  | pNoise mode rate =>
    cases h
    exact .inr (.inr (.inr (.inr (.inr (.inr ⟨rfl, rfl⟩)))))

/-- The decoder reads only STREAM rows. -/
theorem decode_inStream {bs r : List Byte} {i : Instr} (h : decode bs = .ok (i, r)) : i.inStream = true := by
  cases bs with
  | nil => cases h
  | cons b rest =>
    simp only [decode] at h
    split_ifs at h
    · split at h <;> cases h
      rfl
    · split at h <;> cases h
      rfl
    all_goals
      cases h
      rfl

/-- A fetch stays below LEN, so that `MemRead` is defined (R31). -/
theorem fetchBytes_eq (s : State) :
    fetchBytes s = s.buf.readBytes s.wOffset (min longestInstr (s.len - s.wOffset)) := by
  unfold fetchBytes memRead
  split
  · rfl
  · next h =>
    rw [show min longestInstr (s.len - s.wOffset) = 0 by omega]
    rfl

/-- Where an opcode byte is present, fetching starts with it. -/
theorem fetchBytes_cons {s : State} (h : s.wOffset < s.len) :
    fetchBytes s = s.buf.read s.wOffset ::
      s.buf.readBytes (s.wOffset + 1) (min 2 (s.len - s.wOffset - 1)) := by
  rw [fetchBytes_eq, longestInstr]
  rw [show min 3 (s.len - s.wOffset) = min 2 (s.len - s.wOffset - 1) + 1 by omega]
  rfl

/-- A Turn by its opcode byte (R74, R50): the bound test of the opcode, then the command's own rule. -/
theorem turn_eq (s : State) :
    turn s =
      if s.len ≤ s.wOffset then .next (raiseEndOfStream s)
      else if s.buf.read s.wOffset = 0x50#8 then execPsgw (s.buf.read (s.wOffset + 1)) s
      else if s.buf.read s.wOffset = 0x61#8 then
        execWaitN (le16 (s.buf.read (s.wOffset + 1)) (s.buf.read (s.wOffset + 2))) s
      else if s.buf.read s.wOffset = 0x62#8 then execWait1 s
      else if s.buf.read s.wOffset = 0x66#8 then execEndData s
      else execIllegal (s.buf.read s.wOffset) s := by
  unfold turn
  by_cases hlen : s.len ≤ s.wOffset
  · have : fetchBytes s = [] := by
      rw [fetchBytes_eq]
      rw [show s.len - s.wOffset = 0 by omega]
      rfl
    simp [this, decode, hlen]
  · rw [fetchBytes_cons (by omega), if_neg hlen]
    simp only [decode]
    by_cases h50 : s.buf.read s.wOffset = 0x50#8
    · simp only [h50, if_true]
      by_cases h2 : s.wOffset + 2 ≤ s.len
      · rw [show min 2 (s.len - s.wOffset - 1) = min 1 (s.len - s.wOffset - 2) + 1 by omega]
        rfl
      · rw [show s.len - s.wOffset - 1 = 0 by omega]
        simp [execPsgw, bytesPresent, h2]
    · by_cases h61 : s.buf.read s.wOffset = 0x61#8
      · simp only [h61, if_true]
        by_cases h3 : s.wOffset + 3 ≤ s.len
        · rw [show min 2 (s.len - s.wOffset - 1) = 2 by omega]
          rfl
        · have : s.len - s.wOffset - 1 = 0 ∨ s.len - s.wOffset - 1 = 1 := by omega
          rcases this with h | h <;> rw [h] <;>
            simp [Memory.readBytes, execWaitN, bytesPresent, h3]
      · by_cases h62 : s.buf.read s.wOffset = 0x62#8
        · simp [h62, exec]
        · by_cases h66 : s.buf.read s.wOffset = 0x66#8
          · simp [h66, exec]
          · simp [h50, h61, h62, h66, exec]

/-- Every next state of a Turn is a row's, or the end of the stream was met. -/
theorem turn_cases {s t : State} (h : turn s = .next t) :
    (∃ i r, decode (fetchBytes s) = .ok (i, r) ∧ exec i s = .next t) ∨ t = raiseEndOfStream s := by
  unfold turn at h
  split at h
  · next i r hd => exact .inl ⟨i, r, hd, h⟩
  · cases h
    exact .inr rfl

/-- What a Turn can do to the state: one lemma for the invariants, the command's own rule left behind. -/
theorem turn_effects {s t : State} (h : turn s = .next t) :
    (∃ dd, s.wOffset + 2 ≤ s.len ∧ t = { busWrite s dd with wOffset := s.wOffset + 2 }) ∨
    (∃ w k, t = commit { s with wTicks := w, wOffset := s.wOffset + k }) ∨
    (s.loopValid = true ∧ t = { s with wOffset := s.loopOffset }) ∨
    (s.loopValid = false ∧ s.wOffset < s.len ∧ s.buf.read s.wOffset = 0x66#8 ∧ t = commit (setFin s)) ∨
    (∃ e, t = raise .frame e s) := by
  rw [turn_eq] at h
  split_ifs at h with h0 h1 h2 h3 h4
  · cases h
    exact .inr (.inr (.inr (.inr ⟨_, rfl⟩)))
  · unfold execPsgw at h
    split at h <;> cases h
    · next hp => exact .inl ⟨_, by simpa [bytesPresent] using hp, rfl⟩
    · exact .inr (.inr (.inr (.inr ⟨_, rfl⟩)))
  · unfold execWaitN at h
    split at h
    · obtain ⟨w, -, hk⟩ := withWTicks_next h
      cases hk
      exact .inr (.inl ⟨w, 3, rfl⟩)
    · cases h
      exact .inr (.inr (.inr (.inr ⟨_, rfl⟩)))
  · obtain ⟨w, -, hk⟩ := withWTicks_next h
    cases hk
    exact .inr (.inl ⟨w, 1, rfl⟩)
  · unfold execEndData at h
    split at h <;> cases h
    · next hl => exact .inr (.inr (.inl ⟨hl, rfl⟩))
    · next hl => exact .inr (.inr (.inr (.inl ⟨by simpa using hl, by omega, h4, rfl⟩)))
  · cases h
    exact .inr (.inr (.inr (.inr ⟨_, rfl⟩)))

/-- Every next state of the start of a FRAME is one of these (R71 to R73). -/
theorem startFrame_cases {s t : State} (h : startFrame s = .next t) :
    (s.finished = true ∧ t = raise .frame .endOfSong s) ∨
    (∃ w, s.finished = false ∧ w.toInt = s.ticks.toInt - 1 ∧ 0 < w.toInt ∧ t = earlyReturn w s) ∨
    (∃ w, s.finished = false ∧ w.toInt = s.ticks.toInt - 1 ∧ w.toInt ≤ 0 ∧ t = enterDecode w s) := by
  unfold startFrame at h
  split at h
  · next hf =>
    cases h
    exact .inl ⟨hf, rfl⟩
  · next hf =>
    split at h
    · cases h
    · next w hw =>
      have hf' : s.finished = false := by simpa using hf
      split at h
      · next hs =>
        cases h
        exact .inr (.inl ⟨w, hf', narrowTicks_some hw, by simpa [stillWaiting] using hs, rfl⟩)
      · next hs =>
        cases h
        exact .inr (.inr ⟨w, hf', narrowTicks_some hw, by simpa [stillWaiting] using hs, rfl⟩)

/-- Every next state of a request other than FRAME. -/
theorem perform_cases {op : HostOp} {s t : State} (h : perform op s = .next t) :
    (op = .frame ∧ startFrame s = .next t) ∨
    (op = .init ∧
      t = report .init .ok (leaveFrame (clearLoop { resetPlayback s with buf := [], len := 0 }))) ∨
    (op = .reset ∧ t = report .reset .ok (resetPlayback s)) ∨
    (∃ src v, op = .load src ∧ readSong s.params.aw src = .song v ∧
      t = report .load .ok (resetPlayback (install v s))) ∨
    (∃ k e, op ≠ .frame ∧ t = raise k e s) ∨
    (∃ k bs, op ≠ .frame ∧ t = report k .ok (busWriteAll s bs)) ∨
    (op = .readStatus ∧ t = report .readStatus (.status (statusOf s)) s) := by
  cases op with
  | init =>
    cases h
    exact .inr (.inl ⟨rfl, rfl⟩)
  | reset =>
    cases h
    exact .inr (.inr (.inl ⟨rfl, rfl⟩))
  | load src =>
    simp only [perform, loadOp] at h
    split at h
    · next v hv =>
      cases h
      exact .inr (.inr (.inr (.inl ⟨src, v, rfl, hv, rfl⟩)))
    · next e _ =>
      cases h
      exact .inr (.inr (.inr (.inr (.inl ⟨_, e, by simp, rfl⟩))))
    · cases h
  | frame => exact .inl ⟨rfl, h⟩
  | setFreq ch f =>
    rcases encoderOp_cases (fun _ => frequencyRows_psg) h with ⟨e, rfl⟩ | ⟨bs, rfl⟩
    · exact .inr (.inr (.inr (.inr (.inl ⟨_, e, by simp, rfl⟩))))
    · exact .inr (.inr (.inr (.inr (.inr (.inl ⟨_, bs, by simp, rfl⟩)))))
  | setVol ch vol =>
    rcases encoderOp_cases (fun _ => volumeRows_psg) h with ⟨e, rfl⟩ | ⟨bs, rfl⟩
    · exact .inr (.inr (.inr (.inr (.inl ⟨_, e, by simp, rfl⟩))))
    · exact .inr (.inr (.inr (.inr (.inr (.inl ⟨_, bs, by simp, rfl⟩)))))
  | setNoise mode rate =>
    rcases encoderOp_cases (fun _ => noiseRows_psg) h with ⟨e, rfl⟩ | ⟨bs, rfl⟩
    · exact .inr (.inr (.inr (.inr (.inl ⟨_, e, by simp, rfl⟩))))
    · exact .inr (.inr (.inr (.inr (.inr (.inl ⟨_, bs, by simp, rfl⟩)))))
  | readStatus =>
    cases h
    exact .inr (.inr (.inr (.inr (.inr (.inr ⟨rfl, rfl⟩)))))

/-- Every next state of a step: a Turn, a request, or nothing. -/
theorem step_cases {s t : State} (h : step s = .next t) :
    (s.phase = .decode ∧ turn s = .next t) ∨
    (s.phase = .idle ∧ s.requests = [] ∧ t = s) ∨
    (∃ op rest, s.phase = .idle ∧ s.requests = op :: rest ∧ perform op { s with requests := rest } = .next t) := by
  unfold step stepState at h
  split at h
  · next hp => exact .inl ⟨hp, h⟩
  · next hp =>
    split at h
    · next hr =>
      cases h
      exact .inr (.inl ⟨hp, hr, rfl⟩)
    · next op rest hr => exact .inr (.inr ⟨op, rest, hp, hr, h⟩)

/-- One step of a run. -/
theorem run_succ (n : Nat) (s : State) :
    Host.Core.run Sys2Proof.core (n + 1) s =
      match step s with
      | .next t => Host.Core.run Sys2Proof.core n t
      | .fault e => .fault e
      | .refused r => .refused r := by
  have hc : Sys2Proof.core.step s = step s := rfl
  simp only [Host.Core.run]
  rw [hc]
  cases step s <;> rfl

end Sys2Proof.Machine
end

