-- ==== Sys2Proof/Tests/Slice0.lean ====
section
/-! SUPPORT. Tests whose expected results stand in spec/95_test_vectors.md (the vector is named at each), smoke tests of
WellFormed and of the decoder, and a witness for every statement that has hypotheses. -/

namespace Sys2Proof.Tests
open Sys2Proof.Machine

/-! ## Small states -/

/-- A song in place as after RESET, with nothing written to BUS yet. -/
def song (bs : List Byte) (loop : Option Nat := none) : State :=
  { State.reset with
    buf := Memory.ofBytes 0 bs, len := bs.length, loopValid := loop.isSome, loopOffset := loop.getD 0, bus := [] }

/-- That song with a FRAME decoding at an index, W_TICKS as given. -/
def decoding (bs : List Byte) (at_ : Nat) (t : Int) (loop : Option Nat := none) : State :=
  { song bs loop with phase := .decode, wOffset := at_, wTicks := BitVec.ofInt 32 t }

/-- That song between operations with the playback state given. -/
def between (bs : List Byte) (at_ : Nat) (t : Int) (fin : Bool) (loop : Option Nat := none) : State :=
  { song bs loop with offset := at_, ticks := BitVec.ofInt 32 t, finished := fin }

/-- The host requests these operations. -/
def asking (s : State) (ops : List HostOp) : State := { s with requests := ops }

/-- What a vector's row shows: the result, the bytes on BUS, OFFSET, TICKS, FINISHED. -/
structure Row where
  result : Option OpResult
  bus : List Byte
  offset : Nat
  ticks : Int
  finished : Bool
deriving DecidableEq, Repr

def row (r : Result) : Option Row :=
  match r with
  | .next t => some ⟨t.results.getLast?.map (·.result), t.bus, t.offset, t.ticks.toInt, t.finished⟩
  | .fault _ => none
  | .refused _ => none

/-- What a Turn that continues leaves: PHASE, W_OFFSET, W_TICKS, the bytes on BUS. -/
def working (r : Result) : Option (Phase × Nat × Int × List Byte) :=
  match r with
  | .next t => some (t.phase, t.wOffset, t.wTicks.toInt, t.bus)
  | .fault _ => none
  | .refused _ => none

/-- What a LOAD leaves: the result, LEN, LOOP_VALID, the bytes on BUS. -/
def loaded (r : Result) : Option (Option OpResult × Nat × Bool × List Byte) :=
  match r with
  | .next t => some (t.results.getLast?.map (·.result), t.len, t.loopValid, t.bus)
  | .fault _ => none
  | .refused _ => none

def refusal (r : Result) : Option Refusal :=
  match r with
  | .next _ => none
  | .fault _ => none
  | .refused e => some e

def failed (e : ErrorKind) : Option OpResult := some (.error e)

/-- A header with the four fields R164 reads. -/
def header (eof version clock loop : List Byte) : List Byte :=
  [0x56#8, 0x67#8, 0x6D#8, 0x20#8] ++ eof ++ version ++ clock ++ List.replicate 12 0#8 ++ loop ++ List.replicate 32 0#8

def v150 : List Byte := [0x50#8, 1#8, 0#8, 0#8]
def clk : List Byte := [0x99#8, 0x9E#8, 0x36#8, 0#8]
def num (b : Byte) : List Byte := [b, 0#8, 0#8, 0#8]

/-- HDR2 of 2.12. -/
def hdr2 : List Byte := header (num 0x4E#8) v150 clk (num 0x27#8)

/-- The 18 bytes of P2. -/
def p2 : List Byte :=
  [0x50#8, 0xB0#8, 0x62#8, 0x50#8, 0xAB#8, 0x50#8, 0x1A#8, 0x61#8, 0x9D#8] ++
    [0x08#8, 0x50#8, 0xAE#8, 0x50#8, 0x0F#8, 0x61#8, 0xDF#8, 0x02#8, 0x66#8]

def ld1 : ByteSource := { bytes := hdr2 ++ p2 }

def silence : List Byte := [0x9F#8, 0xBF#8, 0xDF#8, 0xFF#8]

/-! ## WellFormed: one ill-formed term for each check -/

theorem test_illegal_is_no_psgw : (Instr.illegal 0x50#8).wellFormed = false := by decide
theorem test_illegal_is_no_waitN : (Instr.illegal 0x61#8).wellFormed = false := by decide
theorem test_illegal_is_no_wait1 : (Instr.illegal 0x62#8).wellFormed = false := by decide
theorem test_illegal_is_no_end : (Instr.illegal 0x66#8).wellFormed = false := by decide
theorem test_tone_channel_3_is_ill_formed : (Instr.pToneLatch 3#2 0#4).wellFormed = false := by decide
theorem test_illegal_byte_is_well_formed : (Instr.illegal 0x99#8).wellFormed = true := by decide

/-! ## Decoding: words written out from R50, R51, R54, R58, R59 -/

theorem test_decode_psgw : decode [0x50#8, 0x66#8] = .ok (.psgw 0x66#8, []) := by decide
theorem test_decode_waitN_low_byte_first : decode [0x61#8, 0x44#8, 0xAC#8] = .ok (.waitN 44100#16, []) := by decide
theorem test_decode_wait1 : decode [0x62#8, 0x50#8] = .ok (.wait1, [0x50#8]) := by decide
theorem test_decode_end : decode [0x66#8] = .ok (.endData, []) := by decide
theorem test_decode_illegal : decode [0x63#8] = .ok (.illegal 0x63#8, [0x63#8]) := by decide
theorem test_decode_tone_latch : -- 1 01 0 1011, R59
    decodePsg Params.documented .toneLatch 0b10101011#8 = some (.pToneLatch 1#2 0b1011#4) := by decide
theorem test_decode_tone_data : -- 00 011010, R59
    decodePsg Params.documented .toneData 0b00011010#8 = some (.pToneData 0b011010#6) := by decide
theorem test_decode_vol : -- 1 10 1 0110, S8
    decodePsg Params.documented .vol 0b11010110#8 = some (.pVol 2#2 6#4) := by decide
theorem test_decode_noise : -- 11110 1 10, S8
    decodePsg Params.documented .noise 0b11110110#8 = some (.pNoise 1#1 2#2) := by decide
theorem test_table_word_waitN : decodeTableWord 24 0xAC4461 = some (.waitN 44100#16) := by decide
theorem test_table_word_short : decodeTableWord 8 0x61 = some (.waitN 0#16) := by decide
theorem test_table_word_psg_row : decodeTableWord 8 0xF6 = some (.illegal 0xF6#8) := by decide -- R61
theorem test_placed_word_runs :
    working (step (State.reset.withFetchWord 16 0x9F50)) = some (.decode, 2, -1, silence ++ [0x9F#8]) := by decide

/-! ## The start of a FRAME (2.1) -/

theorem test_T1 : row (step (asking (between [0x62#8] 0 0 true) [.frame])) = some ⟨failed .endOfSong, [], 0, 0, true⟩ := by
  decide
theorem test_T3 : row (step (asking (between [0x62#8] 0 3 false) [.frame])) = some ⟨some .ok, [], 0, 2, false⟩ := by
  decide
theorem test_T5 : working (step (asking (between [0x62#8] 0 1 false) [.frame])) = some (.decode, 0, 0, []) := by decide
theorem test_T8 : row (runSteps 2 (asking (between [0x62#8] 1 0 false) [.frame])) =
    some ⟨failed (.unexpectedEndOfStream 1), [], 1, 0, false⟩ := by decide

/-! ## The STREAM rows (2.2 to 2.6) -/

/-- W50c: an operand 0x66 is no END. -/
theorem test_W50c : working (step (decoding [0x50#8, 0x66#8, 0x62#8] 0 (-1))) = some (.decode, 2, -1, [0x66#8]) := by
  decide
/-- W50g: the operand of the second PSGW is missing; the payload is the opcode's index. -/
theorem test_W50g : row (step (decoding [0x50#8, 0x9F#8, 0x50#8] 2 (-1))) =
    some ⟨failed (.unexpectedEndOfStream 2), [], 0, 0, false⟩ := by decide
/-- 2.3: 44100 samples are 60 frames. -/
theorem test_waitN_44100 : row (step (decoding [0x61#8, 0x44#8, 0xAC#8] 0 0)) = some ⟨some .ok, [], 3, 60, false⟩ := by
  decide
/-- P3, FRAME 2: a wait below one frame pays nothing back. -/
theorem test_P3_debt : row (step (decoding [0x61#8, 0x90#8, 0x01#8, 0x61#8, 0x90#8, 0x01#8] 3 (-2))) =
    some ⟨some .ok, [], 6, -2, false⟩ := by decide
/-- T7: WAIT1 from -5. -/
theorem test_T7 : row (step (decoding [0x62#8] 0 (-5))) = some ⟨some .ok, [], 1, -4, false⟩ := by decide
/-- E66a: END without a loop. -/
theorem test_E66a : row (step (decoding [0x66#8] 0 (-1))) = some ⟨some .ok, [], 0, -1, true⟩ := by decide
/-- E66c: END with a loop jumps and goes on. -/
theorem test_E66c : working (step (decoding [0x62#8, 0x66#8] 1 (-1) (some 0))) = some (.decode, 0, -1, []) := by decide
/-- S9a: the unknown byte 0x99, the write before it kept, the registers as before the FRAME. -/
theorem test_S9a : row (runSteps 3 (asking (song [0x50#8, 0x9F#8, 0x99#8]) [.frame])) =
    some ⟨failed (.unknownOpcode 2 0x99#8), [0x9F#8], 0, 0, false⟩ := by decide
/-- 2.6: a PSG byte without its 0x50 is no command. -/
theorem test_psg_byte_is_unknown : row (step (decoding [0xFF#8, 0x62#8] 0 (-1))) =
    some ⟨failed (.unknownOpcode 0 0xFF#8), [], 0, 0, false⟩ := by decide

/-! ## The PSG output rows and the encoder (2.8 to 2.10). Frequencies are binary64 bit patterns. -/

theorem test_tone_latch_row : row (exec (.pToneLatch 1#2 0xB#4) (song [])) = some ⟨none, [0xAB#8], 0, 0, false⟩ := by
  decide
theorem test_tone_data_row : row (exec (.pToneData 0x1A#6) (song [])) = some ⟨none, [0x1A#8], 0, 0, false⟩ := by decide
theorem test_vol_row : row (exec (.pVol 1#2 0#4) (song [])) = some ⟨none, [0xB0#8], 0, 0, false⟩ := by decide
theorem test_noise_row : row (exec (.pNoise 1#1 2#2) (song [])) = some ⟨none, [0xF6#8], 0, 0, false⟩ := by decide

/-- F1: 440.0 on channel 0. -/
theorem test_F1 : encFrequency Params.documented 0 0x407B800000000000#64 = .ok [0x8E#8, 0x0F#8] := by decide +kernel
/-- F12: 55930.390625 on channel 1, 2.0 exactly. -/
theorem test_F12 : encFrequency Params.documented 1 0x40EB4F4C80000000#64 = .ok [0xA2#8, 0x00#8] := by decide +kernel
/-- F16: 3 in binary64, 2 in exact arithmetic. -/
theorem test_F16 : toneRegister .binary64 0x40E234DDAAAAAAAB#64 = 3 ∧ toneRegister .exact 0x40E234DDAAAAAAAB#64 = 2 := by
  decide +kernel
/-- F17: the smallest subnormal, the division overflows. -/
theorem test_F17 : toneRegister .binary64 1#64 = 1021 := by decide +kernel
/-- F18: the largest finite value, the product overflows. -/
theorem test_F18 : toneRegister .binary64 0x7FEFFFFFFFFFFFFF#64 = 0 := by decide +kernel
/-- F6: 109.45 clamps. -/
theorem test_F6 : encFrequency Params.documented 0 0x405B5CCCCCCCCCCD#64 = .ok [0x8D#8, 0x3F#8] := by decide +kernel
/-- F19, F21, F24: the noise channel, 0.0 and plus infinity. -/
theorem test_F19 : encFrequency Params.documented 3 0x407B800000000000#64 = .error .outOfRange := by decide
theorem test_F21 : encFrequency Params.documented 0 0#64 = .error .outOfRange := by decide
theorem test_F24 : encFrequency Params.documented 0 0x7FF0000000000000#64 = .error .outOfRange := by decide
/-- S7 and 2.9. -/
theorem test_S7 : encVolume Params.documented 1 15 = .ok [0xB0#8] := by decide
theorem test_volume_16 : encVolume Params.documented 0 16 = .error .outOfRange := by decide
/-- 2.10. -/
theorem test_noise_1_2 : encNoise Params.documented 1 2 = .ok [0xF6#8] := by decide
theorem test_noise_without_bit4 : encNoise { Params.documented with noiseBit4 := false } 1 3 = .ok [0xE7#8] := by decide
/-- P4, step 5. -/
theorem test_set_vol : row (step (asking (between p2 9 1 false) [.setVol 2 9])) = some ⟨some .ok, [0xD6#8], 9, 1, false⟩ := by
  decide
theorem test_set_noise_range : row (step (asking (song []) [.setNoise 0 4])) =
    some ⟨failed .outOfRange, [], 0, 0, false⟩ := by decide

/-! ## INIT, RESET, LOAD, the status read (2.11, 2.12) -/

theorem test_init : loaded (step (asking (between p2 12 (-3) true (some 3)) [.init])) = some (some .ok, 0, false, silence) := by
  decide
theorem test_reset : row (step (asking (between p2 12 0 true) [.reset])) = some ⟨some .ok, silence, 0, 0, false⟩ := by
  decide
theorem test_LD1 : loaded (step (asking (song []) [.load ld1])) = some (some .ok, 18, true, silence) := by decide
theorem test_LD1_reads_back : (match step (asking (song []) [.load ld1]) with
    | .next t => (t.buf.readBytes 0 18, t.loopOffset)
    | .fault _ => ([], 0)
    | .refused _ => ([], 0)) = (p2, 3) := by decide
/-- LD4: clock 3579540. -/
theorem test_LD4 : loaded (step (asking (song [])
    [.load { bytes := header (num 0x4E#8) v150 [0x94#8, 0x9E#8, 0x36#8, 0#8] (num 0x27#8) ++ p2 }])) =
    some (failed .unsupportedClock, 0, false, []) := by decide
/-- LD5: 6 payload bytes. -/
theorem test_LD5 : loaded (step (asking (song []) [.load { bytes := hdr2 ++ p2.take 6 }])) =
    some (failed .truncatedFile, 0, false, []) := by decide
/-- LD14: a big-endian version. -/
theorem test_LD14 : loaded (step (asking (song [])
    [.load { bytes := header (num 0x4E#8) [0#8, 0#8, 1#8, 0x50#8] clk (num 0x27#8) ++ p2 }])) =
    some (failed .unsupportedVersion, 0, false, []) := by decide
/-- LD16, LD18: outside R168. -/
theorem test_LD16 : refusal (step (asking (song [])
    [.load { bytes := header (num 0x3B#8) v150 clk (num 0#8) }])) = some .loadLengthNegative := by decide
theorem test_LD18 : refusal (step (asking (song [])
    [.load { bytes := header (num 0x4E#8) v150 clk (num 0x37#8) ++ p2 }])) = some .loadLoopBeyondEnd := by decide
theorem test_status : row (step (asking (between p2 9 (-1) false (some 3)) [.readStatus])) =
    some ⟨some (.status ⟨9, (-1 : BitVec 32), false, 18, true, 3⟩), [], 9, -1, false⟩ := by decide

/-! ## Assembler (R57): P1's first lines -/

theorem test_assemble_P1 : assemble Params.documented [.vol 0 15, .tone 0 254, .waitN 1470] =
    some ([0x50#8, 0x90#8, 0x50#8, 0x8E#8, 0x50#8, 0x0F#8] ++ [0x61#8, 0xBE#8, 0x05#8]) := by decide
theorem test_assembled_loop_P2 :
    assembledLoop Params.documented [.vol 1 15, .wait1, .label 0, .tone 1 427, .endData, .loop 0] = some 3 := by decide

/-! ## Witnesses: for every statement with hypotheses, states and operands that meet them -/

/-- For InitSetsAllState. -/
theorem witness_init : (asking (song p2 (some 3)) [.init, .frame]).Requesting .init [.frame] := by decide
/-- For ResetZeroesPlaybackAndKeepsTheSong. -/
theorem witness_reset : (asking (song p2 (some 3)) [.reset]).Requesting .reset [] := by decide
/-- For StatusReadReturnsTheRegisters. -/
theorem witness_status : (asking (song p2) [.readStatus]).Requesting .readStatus [] := by decide
/-- For IdleBlockHoldsItsState. -/
theorem witness_idle : (song p2).phase = .idle ∧ (song p2).requests = [] := by decide

/-- The premises of LoadInstallsTheSong, for a header and a payload. -/
abbrev LoadPremises (h payload : List Byte) : Prop :=
  (asking (song []) [.load { bytes := h ++ payload ++ [0x99#8] }]).Requesting
      (.load { bytes := h ++ payload ++ [0x99#8] }) [] ∧
    h.length = 64 ∧ h.take 4 = [0x56#8, 0x67#8, 0x6D#8, 0x20#8] ∧ le32At h 8 = 0x150 ∧ le32At h 12 = 3579545 ∧
    60 ≤ le32At h 4 ∧ payload.length = le32At h 4 + 4 - 64 ∧ payload.length < 2 ^ (song []).params.aw ∧
    (le32At h 28 ≠ 0 → 36 ≤ le32At h 28 ∧ le32At h 28 - 36 ≤ payload.length)

theorem witness_load : LoadPremises hdr2 p2 := by decide
theorem witness_load_no_loop : LoadPremises (header (num 0x4E#8) v150 clk (num 0#8)) p2 := by decide
theorem witness_load_loop_at_0 : LoadPremises (header (num 0x4E#8) v150 clk (num 0x24#8)) p2 := by decide
theorem witness_load_loop_at_len : LoadPremises (header (num 0x4E#8) v150 clk (num 0x36#8)) p2 := by decide
theorem witness_load_empty : LoadPremises (header (num 0x3C#8) v150 clk (num 0#8)) [] := by decide

/-- The premises of LoadErrorsInstallNothing about the source and the error. -/
abbrev LoadErrorPremises (src : ByteSource) (e : ErrorKind) : Prop :=
  let h := src.bytes.take 64
  ((src.headerIoError = true ∨ src.bytes.length < 64) ∧ e = .truncatedFile) ∨
  ((src.headerIoError = false ∧ 64 ≤ src.bytes.length) ∧
    ((h.take 4 ≠ [0x56#8, 0x67#8, 0x6D#8, 0x20#8] ∧ e = .invalidHeader) ∨
    (h.take 4 = [0x56#8, 0x67#8, 0x6D#8, 0x20#8] ∧ le32At h 8 ≠ 0x150 ∧ e = .unsupportedVersion) ∨
    (h.take 4 = [0x56#8, 0x67#8, 0x6D#8, 0x20#8] ∧ le32At h 8 = 0x150 ∧ le32At h 12 ≠ 3579545 ∧
      e = .unsupportedClock) ∨
    (h.take 4 = [0x56#8, 0x67#8, 0x6D#8, 0x20#8] ∧ le32At h 8 = 0x150 ∧ le32At h 12 = 3579545 ∧
      60 ≤ le32At h 4 ∧ le32At h 4 - 60 < 2 ^ (song []).params.aw ∧
      (le32At h 28 ≠ 0 → 36 ≤ le32At h 28 ∧ le32At h 28 - 36 ≤ le32At h 4 - 60) ∧
      (src.payloadIoError = true ∨ src.bytes.length < 64 + (le32At h 4 - 60)) ∧ e = .truncatedFile)))

theorem witness_load_requested : (asking (song p2) [.load ld1]).Requesting (.load ld1) [] := by decide
theorem witness_load_short_header : LoadErrorPremises { bytes := hdr2.take 63 } .truncatedFile := by decide
theorem witness_load_header_io_error : LoadErrorPremises { ld1 with headerIoError := true } .truncatedFile := by decide
theorem witness_load_bad_magic :
    LoadErrorPremises { bytes := [0x56#8, 0x47#8] ++ hdr2.drop 2 ++ p2 } .invalidHeader := by decide
theorem witness_load_bad_version :
    LoadErrorPremises { bytes := header (num 0x4E#8) [0x51#8, 1#8, 0#8, 0#8] clk (num 0#8) } .unsupportedVersion := by decide
theorem witness_load_bad_clock :
    LoadErrorPremises { bytes := header (num 0x4E#8) v150 [0x94#8, 0x9E#8, 0x36#8, 0#8] (num 0#8) } .unsupportedClock := by
  decide
theorem witness_load_short_payload : LoadErrorPremises { bytes := hdr2 ++ p2.take 17 } .truncatedFile := by decide
theorem witness_load_payload_io_error : LoadErrorPremises { ld1 with payloadIoError := true } .truncatedFile := by decide

/-- The common premises of LoadOutsideItsPreconditionsIsRefused. -/
abbrev RefusalPremises (src : ByteSource) : Prop :=
  let h := src.bytes.take 64
  (asking (song []) [.load src]).Requesting (.load src) [] ∧ src.headerIoError = false ∧ 64 ≤ src.bytes.length ∧
    h.take 4 = [0x56#8, 0x67#8, 0x6D#8, 0x20#8] ∧ le32At h 8 = 0x150 ∧ le32At h 12 = 3579545

theorem witness_load_length_negative :
    RefusalPremises { bytes := header (num 0x3B#8) v150 clk (num 0#8) } ∧
      le32At (header (num 0x3B#8) v150 clk (num 0#8)) 4 < 60 := by decide
/-- 2^AW with AW = 4: a payload of 16 bytes is too long. -/
theorem witness_load_length_too_wide :
    RefusalPremises { bytes := header (num 0x4C#8) v150 clk (num 0#8) } ∧
      60 ≤ le32At (header (num 0x4C#8) v150 clk (num 0#8)) 4 ∧
      2 ^ 4 ≤ le32At (header (num 0x4C#8) v150 clk (num 0#8)) 4 - 60 := by decide
theorem witness_load_loop_negative :
    RefusalPremises { bytes := header (num 0x4E#8) v150 clk (num 0x23#8) } ∧
      60 ≤ le32At (header (num 0x4E#8) v150 clk (num 0x23#8)) 4 ∧
      le32At (header (num 0x4E#8) v150 clk (num 0x23#8)) 4 - 60 < 2 ^ 32 ∧
      0 < le32At (header (num 0x4E#8) v150 clk (num 0x23#8)) 28 ∧
      le32At (header (num 0x4E#8) v150 clk (num 0x23#8)) 28 < 36 := by decide
theorem witness_load_loop_beyond_end :
    RefusalPremises { bytes := header (num 0x4E#8) v150 clk (num 0x37#8) } ∧
      60 ≤ le32At (header (num 0x4E#8) v150 clk (num 0x37#8)) 4 ∧
      le32At (header (num 0x4E#8) v150 clk (num 0x37#8)) 4 - 60 < 2 ^ 32 ∧
      36 ≤ le32At (header (num 0x4E#8) v150 clk (num 0x37#8)) 28 ∧
      le32At (header (num 0x4E#8) v150 clk (num 0x37#8)) 4 - 60 <
        le32At (header (num 0x4E#8) v150 clk (num 0x37#8)) 28 - 36 := by decide

/-- LD9 and LD15 against LD1: other bytes at 0x10 to 0x1B and 0x20 to 0x3F, two bytes after the payload. -/
def ld15 : ByteSource :=
  { bytes := hdr2.take 16 ++ List.replicate 12 0xAA#8 ++ (hdr2.drop 28).take 4 ++ List.replicate 32 0x4C#8 ++ p2 ++
      [0x99#8, 0x99#8] }

theorem witness_load_ignores :
    (song []).phase = .idle ∧ 64 ≤ ld1.bytes.length ∧ 64 ≤ ld15.bytes.length ∧
      ld1.headerIoError = ld15.headerIoError ∧ ld1.payloadIoError = ld15.payloadIoError ∧
      (∀ k, k < 16 ∨ (28 ≤ k ∧ k < 32) → ld1.bytes.getD k 0 = ld15.bytes.getD k 0) ∧
      (ld1.bytes.drop 64).take (le32At ld1.bytes 4 - 60) = (ld15.bytes.drop 64).take (le32At ld1.bytes 4 - 60) ∧
      ld1 ≠ ld15 := by
  refine ⟨rfl, by decide, by decide, rfl, rfl, ?_, by decide, by decide⟩
  have h : ∀ k < 32, k < 16 ∨ (28 ≤ k ∧ k < 32) → ld1.bytes.getD k 0 = ld15.bytes.getD k 0 := by decide
  intro k hk
  exact h k (by omega) hk

/-- For FrameOnFinishedSongRaisesEndOfSong. -/
theorem witness_frame_finished : (asking (between p2 17 0 true) [.frame]).Requesting .frame [] ∧
    (asking (between p2 17 0 true) [.frame]).finished = true := by decide
/-- For FrameDecrementsThenWaitsOrDecodes, first clause, at its lowest TICKS. -/
theorem witness_frame_waits : (asking (between p2 3 2 false) [.frame]).Requesting .frame [] ∧
    (asking (between p2 3 2 false) [.frame]).finished = false ∧
    -2 ^ 31 < (asking (between p2 3 2 false) [.frame]).ticks.toInt ∧
    0 < (asking (between p2 3 2 false) [.frame]).ticks.toInt - 1 := by decide
/-- For FrameDecrementsThenWaitsOrDecodes, second clause, at its highest TICKS. -/
theorem witness_frame_decodes : (asking (between p2 3 1 false) [.frame]).Requesting .frame [] ∧
    (asking (between p2 3 1 false) [.frame]).finished = false ∧
    -2 ^ 31 < (asking (between p2 3 1 false) [.frame]).ticks.toInt ∧
    (asking (between p2 3 1 false) [.frame]).ticks.toInt - 1 ≤ 0 := by decide
/-- For the same, at its lowest TICKS. -/
theorem witness_frame_decodes_lowest : -2 ^ 31 < (between p2 3 (-2 ^ 31 + 1) false).ticks.toInt ∧
    (between p2 3 (-2 ^ 31 + 1) false).ticks.toInt - 1 ≤ 0 := by decide
/-- For FrameFaultsOnTicksUnderflow. -/
theorem witness_ticks_underflow : (asking (between p2 3 (-2 ^ 31) false) [.frame]).Requesting .frame [] ∧
    (asking (between p2 3 (-2 ^ 31) false) [.frame]).finished = false ∧
    (asking (between p2 3 (-2 ^ 31) false) [.frame]).ticks.toInt = -2 ^ 31 := by decide
/-- For WaitingFramesOnlyCountDown. -/
theorem witness_waiting_frames : (asking (between p2 3 3 false) [.frame, .frame, .reset]).phase = .idle ∧
    (asking (between p2 3 3 false) [.frame, .frame, .reset]).requests = List.replicate 2 .frame ++ [.reset] ∧
    (asking (between p2 3 3 false) [.frame, .frame, .reset]).finished = false ∧
    ((2 : Nat) : Int) < (asking (between p2 3 3 false) [.frame, .frame, .reset]).ticks.toInt := by decide
/-- For FrameOnEmptyStreamRaisesEndOfStream. -/
theorem witness_empty_stream : (asking (between [] 0 1 false) [.frame]).Requesting .frame [] ∧
    (between [] 0 1 false).finished = false ∧ (between [] 0 1 false).len = 0 ∧ (between [] 0 1 false).offset = 0 ∧
    -2 ^ 31 < (between [] 0 1 false).ticks.toInt ∧ (between [] 0 1 false).ticks.toInt ≤ 1 := by decide

/-- The premises of StepRunsTheInstructionAtTheOffset. -/
abbrev RunsPremises (s : State) (i : Instr) : Prop :=
  s.phase = .decode ∧ i.wellFormed = true ∧ i.inStream = true ∧ s.wOffset + (encode s.params i).length ≤ s.len ∧
    s.buf.readBytes s.wOffset (encode s.params i).length = encode s.params i

theorem witness_runs_psgw : RunsPremises (decoding p2 3 (-1)) (.psgw 0xAB#8) := by decide
theorem witness_runs_waitN : RunsPremises (decoding p2 14 0) (.waitN 735#16) := by decide
theorem witness_runs_wait1 : RunsPremises (decoding p2 2 (-1)) .wait1 := by decide
theorem witness_runs_end : RunsPremises (decoding p2 17 (-1)) .endData := by decide
theorem witness_runs_illegal : RunsPremises (decoding p2 4 (-1)) (.illegal 0xAB#8) := by decide

/-- For MissingByteRaisesEndOfStream, at OFFSET = LEN. -/
theorem witness_missing_opcode : (decoding p2 18 0).phase = .decode ∧ (decoding p2 18 0).len ≤ (decoding p2 18 0).wOffset := by
  decide
/-- For MissingByteRaisesEndOfStream, second case. -/
theorem witness_missing_psgw_operand : (decoding [0x62#8, 0x50#8] 1 0).phase = .decode ∧
    (decoding [0x62#8, 0x50#8] 1 0).wOffset < (decoding [0x62#8, 0x50#8] 1 0).len ∧
    (decoding [0x62#8, 0x50#8] 1 0).buf.read 1 = 0x50#8 ∧ (decoding [0x62#8, 0x50#8] 1 0).len ≤ 1 + 1 := by decide
/-- For MissingByteRaisesEndOfStream, third case, both operand bytes missing. -/
theorem witness_missing_waitN_operands : (decoding [0x61#8] 0 0).phase = .decode ∧ 0 < (decoding [0x61#8] 0 0).len ∧
    (decoding [0x61#8] 0 0).buf.read 0 = 0x61#8 ∧ (decoding [0x61#8] 0 0).len ≤ 0 + 2 := by decide
/-- For MissingByteRaisesEndOfStream, third case, one byte missing. -/
theorem witness_missing_waitN_high_byte : (decoding [0x61#8, 0xDF#8] 0 0).phase = .decode ∧
    0 < (decoding [0x61#8, 0xDF#8] 0 0).len ∧
    (decoding [0x61#8, 0xDF#8] 0 0).buf.read 0 = 0x61#8 ∧ (decoding [0x61#8, 0xDF#8] 0 0).len ≤ 0 + 2 := by decide

/-- For PsgwWritesItsOperandToBus, first and third clauses. -/
theorem witness_psgw : (decoding p2 0 0).phase = .decode ∧ (decoding p2 0 0).wOffset + 1 < (decoding p2 0 0).len ∧
    (decoding p2 0 0).buf.read (decoding p2 0 0).wOffset = 0x50#8 := by decide
/-- For the same, the operand the last byte below LEN. -/
theorem witness_psgw_last_operand : (decoding [0x50#8, 0x9F#8] 0 0).wOffset + 1 < (decoding [0x50#8, 0x9F#8] 0 0).len := by
  decide
/-- For PsgwWritesItsOperandToBus, second clause. -/
theorem witness_psgw_missing : (decoding [0x50#8] 0 0).len ≤ (decoding [0x50#8] 0 0).wOffset + 1 := by decide
/-- For WaitNAddsWholeFramesAndCommits, first and third clauses, the operand ending at LEN. -/
theorem witness_waitN : (decoding [0x61#8, 0xFF#8, 0xFF#8] 0 0).phase = .decode ∧
    (decoding [0x61#8, 0xFF#8, 0xFF#8] 0 0).wOffset + 2 < (decoding [0x61#8, 0xFF#8, 0xFF#8] 0 0).len ∧
    (decoding [0x61#8, 0xFF#8, 0xFF#8] 0 0).wTicks.toInt ≤ 0 ∧
    (decoding [0x61#8, 0xFF#8, 0xFF#8] 0 0).buf.read 0 = 0x61#8 := by decide
/-- For WaitNAddsWholeFramesAndCommits, second clause. -/
theorem witness_waitN_missing : (decoding [0x61#8, 0xFF#8] 0 0).len ≤ (decoding [0x61#8, 0xFF#8] 0 0).wOffset + 2 := by
  decide
/-- For WaitOneAddsOneFrameAndCommits. -/
theorem witness_wait1 : (decoding [0x62#8] 0 0).phase = .decode ∧ (decoding [0x62#8] 0 0).wTicks.toInt ≤ 0 ∧
    (decoding [0x62#8] 0 0).wOffset < (decoding [0x62#8] 0 0).len ∧ (decoding [0x62#8] 0 0).buf.read 0 = 0x62#8 := by
  decide
/-- The two waits at the largest sums that fit. -/
theorem witness_waits_at_their_bound :
    (decoding [0x61#8, 0xDF#8, 0x02#8] 0 (2 ^ 31 - 2)).wOffset + 2 < (decoding [0x61#8, 0xDF#8, 0x02#8] 0 0).len ∧
    (decoding [0x61#8, 0xDF#8, 0x02#8] 0 (2 ^ 31 - 2)).wTicks.toInt + (((735#16).toNat / 735 : Nat) : Int) < 2 ^ 31 ∧
    (decoding [0x62#8] 0 (2 ^ 31 - 2)).wTicks.toInt + 1 < 2 ^ 31 := by decide
/-- For EndLoopsOrFinishes, with a loop. -/
theorem witness_end_loops : (decoding p2 17 (-1) (some 3)).phase = .decode ∧
    (decoding p2 17 (-1) (some 3)).wOffset < (decoding p2 17 (-1) (some 3)).len ∧
    (decoding p2 17 (-1) (some 3)).buf.read 17 = 0x66#8 ∧ (decoding p2 17 (-1) (some 3)).loopValid = true := by decide
/-- For EndLoopsOrFinishes, without. -/
theorem witness_end_finishes : (decoding p2 17 (-1)).phase = .decode ∧
    (decoding p2 17 (-1)).wOffset < (decoding p2 17 (-1)).len ∧
    (decoding p2 17 (-1)).buf.read 17 = 0x66#8 ∧ (decoding p2 17 (-1)).loopValid = false := by decide
/-- For UnknownOpcodeIsReportedAndChangesNothing. -/
theorem witness_unknown : (decoding [0x99#8] 0 0).phase = .decode ∧
    (decoding [0x99#8] 0 0).wOffset < (decoding [0x99#8] 0 0).len ∧ (decoding [0x99#8] 0 0).buf.read 0 = 0x99#8 ∧
    0x99#8 ≠ 0x50#8 ∧ 0x99#8 ≠ 0x61#8 ∧ 0x99#8 ≠ 0x62#8 ∧ 0x99#8 ≠ 0x66#8 := by decide
/-- For WaitFaultsOnTicksOverflow. -/
theorem witness_waitN_overflow :
    (decoding [0x61#8, 0xDF#8, 0x02#8] 0 (2 ^ 31 - 1)).wOffset + 2 < (decoding [0x61#8, 0xDF#8, 0x02#8] 0 (2 ^ 31 - 1)).len ∧
    2 ^ 31 ≤ (decoding [0x61#8, 0xDF#8, 0x02#8] 0 (2 ^ 31 - 1)).wTicks.toInt + (((735#16).toNat / 735 : Nat) : Int) := by
  decide
theorem witness_wait1_overflow : 2 ^ 31 ≤ (decoding [0x62#8] 0 (2 ^ 31 - 1)).wTicks.toInt + 1 := by decide
/-- For CommandsContinueOrStopTheLoop. -/
theorem witness_continue_or_stop : (decoding p2 3 0).phase = .decode ∧ (decoding p2 3 0).wTicks.toInt ≤ 0 ∧
    (decoding p2 3 0).wOffset + 2 < (decoding p2 3 0).len ∧ (decoding p2 3 0).loopValid = false ∧
    (decoding p2 3 0 (some 3)).loopValid = true := by decide

/-- For RowsLeaveStreamAndLoopUnchanged. -/
theorem witness_rows_psgw : ∃ t, exec (.psgw 0xAB#8) (decoding p2 3 0) = .next t ∧
    (decoding p2 3 0).wOffset + 1 < (decoding p2 3 0).len := ⟨_, rfl, by decide⟩
theorem witness_rows_psgw_missing : ∃ t, exec (.psgw 0xAB#8) (decoding p2 17 0) = .next t ∧
    ¬(decoding p2 17 0).wOffset + 1 < (decoding p2 17 0).len := ⟨_, rfl, by decide⟩
theorem witness_rows_waitN : ∃ t, exec (.waitN 735#16) (decoding p2 14 0) = .next t ∧
    (∀ dd, Instr.waitN 735#16 ≠ .psgw dd) ∧ (Instr.waitN 735#16).inStream = true := ⟨_, rfl, by decide, rfl⟩
theorem witness_rows_psg : ∃ t, exec (.pVol 3#2 15#4) (song p2) = .next t ∧ (Instr.pVol 3#2 15#4).inStream = false :=
  ⟨_, rfl, rfl⟩

/-- 440.0. -/
def f440 : BitVec 64 := 0x407B800000000000#64

/-- For SetFreqWritesLatchThenData and EncoderRequestsExecuteTheirRows. -/
theorem witness_set_freq_lowest_channel : (asking (song []) [.setFreq 0 f440]).Requesting (.setFreq 0 f440) [] ∧
    legalFrequency f440 = true := by decide
theorem witness_set_freq_highest_channel : (asking (song []) [.setFreq 2 1#64]).Requesting (.setFreq 2 1#64) [] ∧
    (0 : Int) ≤ 2 ∧ (2 : Int) ≤ 2 ∧ legalFrequency 1#64 = true := by decide
/-- For SetFreqWritesLatchThenData, second clause. -/
theorem witness_set_freq_channel_3 : (asking (song []) [.setFreq 3 f440]).Requesting (.setFreq 3 f440) [] ∧ (2 : Int) < 3 := by
  decide
theorem witness_set_freq_negative_channel :
    (asking (song []) [.setFreq (-1) f440]).Requesting (.setFreq (-1) f440) [] ∧ (-1 : Int) < 0 := by decide
theorem witness_set_freq_infinite :
    (asking (song []) [.setFreq 0 0x7FF0000000000000#64]).Requesting (.setFreq 0 0x7FF0000000000000#64) [] ∧
      legalFrequency 0x7FF0000000000000#64 = false := by decide
/-- For LegalFrequenciesAreFiniteAndPositive, its bounds. -/
theorem witness_legal_bounds : legalFrequency 1#64 = true ∧ legalFrequency 0x7FEFFFFFFFFFFFFF#64 = true ∧
    legalFrequency 0#64 = false ∧ legalFrequency 0x8000000000000001#64 = false := by decide

/-- For SetVolWritesInvertedVolume and EncoderRequestsExecuteTheirRows. -/
theorem witness_set_vol : (asking (song []) [.setVol 3 15]).Requesting (.setVol 3 15) [] ∧
    (asking (song []) [.setVol 0 0]).Requesting (.setVol 0 0) [] := by decide
theorem witness_set_vol_range : (asking (song []) [.setVol 4 0]).Requesting (.setVol 4 0) [] ∧
    (asking (song []) [.setVol (-1) 0]).Requesting (.setVol (-1) 0) [] ∧
    (asking (song []) [.setVol 0 16]).Requesting (.setVol 0 16) [] ∧
    (asking (song []) [.setVol 0 (-1)]).Requesting (.setVol 0 (-1)) [] := by decide
/-- For SetNoiseWritesModeAndRate and EncoderRequestsExecuteTheirRows. -/
theorem witness_set_noise : (asking (song []) [.setNoise 1 3]).Requesting (.setNoise 1 3) [] ∧
    (asking (song []) [.setNoise 0 0]).Requesting (.setNoise 0 0) [] := by decide
theorem witness_set_noise_range : (asking (song []) [.setNoise 2 0]).Requesting (.setNoise 2 0) [] ∧
    (asking (song []) [.setNoise (-1) 0]).Requesting (.setNoise (-1) 0) [] ∧
    (asking (song []) [.setNoise 0 4]).Requesting (.setNoise 0 4) [] ∧
    (asking (song []) [.setNoise 0 (-1)]).Requesting (.setNoise 0 (-1)) [] := by decide

/-- For ToneRegisterClampsAt1021: 109.5 (F5) is just not clamped, 109.45 (F6) is, the smallest subnormal (F17) has no
floor. -/
theorem witness_clamp : floorQuotient .binary64 0x405B600000000000#64 = some 1021 ∧
    floorQuotient .binary64 0x405B5CCCCCCCCCCD#64 = some 1022 ∧ floorQuotient .binary64 1#64 = none := by decide +kernel
/-- BinaryToneRegisterIsExactOrOneMore takes both values: F1 and F16. -/
theorem witness_binary_and_exact : legalFrequency f440 = true ∧ toneRegister .binary64 f440 = toneRegister .exact f440 ∧
    legalFrequency 0x40E234DDAAAAAAAB#64 = true ∧
    toneRegister .binary64 0x40E234DDAAAAAAAB#64 = toneRegister .exact 0x40E234DDAAAAAAAB#64 + 1 := by decide +kernel
/-- For RoundToBinary64IsNearestEven: 1/3 is not a binary64, a tie at the last place goes to even, and half of the spacing
above the largest finite value overflows. -/
theorem witness_round_binary64 : roundToBinary64 1 3 = .fin 0x15555555555555 (-54) ∧
    roundToBinary64 (2 ^ 53 + 1) 1 = .fin (2 ^ 52) 1 ∧ roundToBinary64 1 (2 ^ 1075) = .fin 0 (-1074) ∧
    roundToBinary64 (2 ^ 1024 - 2 ^ 970) 1 = .inf ∧ roundToBinary64 (2 ^ 1024 - 2 ^ 970 - 1) 1 = .fin (2 ^ 53 - 1) 971 := by
  decide +kernel
/-- For BinaryQuotientIsRoundedOnce: the smallest subnormal (F17), a normal pattern (F1), the largest (F18). -/
theorem witness_pattern_subnormal : legalFrequency 1#64 = true ∧ (1#64).toNat / 2 ^ 52 = 0 ∧ significandOf 1#64 = 1 := by
  decide
theorem witness_pattern_normal : legalFrequency f440 = true ∧ f440.toNat / 2 ^ 52 ≠ 0 ∧
    significandOf f440 = 440 * 2 ^ 44 ∧ exponentOf f440 = -44 := by decide
theorem witness_product_overflows : legalFrequency 0x7FEFFFFFFFFFFFFF#64 = true ∧
    (2 : ℚ) ^ (1024 : Nat) ≤
      32 * ((significandOf 0x7FEFFFFFFFFFFFFF#64 : ℚ) * 2 ^ exponentOf 0x7FEFFFFFFFFFFFFF#64) := by
  refine ⟨by decide, ?_⟩
  rw [show significandOf 0x7FEFFFFFFFFFFFFF#64 = 2 ^ 53 - 1 by decide,
    show exponentOf 0x7FEFFFFFFFFFFFFF#64 = ((971 : Nat) : Int) by decide, zpow_natCast,
    show (1024 : Nat) = 53 + 971 from rfl, pow_add, ← mul_assoc]
  gcongr
  norm_num
theorem witness_quotient : legalFrequency f440 = true ∧
    32 * ((significandOf f440 : ℚ) * 2 ^ exponentOf f440) < 2 ^ (1024 : Nat) ∧
    ((3579545 : Nat) : ℚ) / (14080 : Nat) = 3579545 / (32 * ((significandOf f440 : ℚ) * 2 ^ exponentOf f440)) ∧
    roundToBinary64 3579545 14080 = .fin 8944889431016913 (-45) := by
  obtain ⟨h, -, hs, he⟩ := witness_pattern_normal
  have hv : 32 * ((significandOf f440 : ℚ) * 2 ^ exponentOf f440) = 14080 := by
    rw [hs, he]
    norm_num
  rw [hv]
  refine ⟨h, ?_, by norm_num, by decide +kernel⟩
  calc (14080 : ℚ) < 2 ^ 14 := by norm_num
    _ ≤ 2 ^ 1024 := pow_le_pow_right₀ (by norm_num) (by omega)
theorem witness_quotient_overflows : legalFrequency 1#64 = true ∧
    32 * ((significandOf 1#64 : ℚ) * 2 ^ exponentOf 1#64) < 2 ^ (1024 : Nat) ∧
    ((3579545 * 2 ^ 1069 : Nat) : ℚ) / (1 : Nat) = 3579545 / (32 * ((significandOf 1#64 : ℚ) * 2 ^ exponentOf 1#64)) ∧
    roundToBinary64 (3579545 * 2 ^ 1069) 1 = .inf := by
  rw [show significandOf 1#64 = 1 by decide, show exponentOf 1#64 = -((1074 : Nat) : Int) by decide, zpow_neg,
    zpow_natCast]
  refine ⟨by decide, ?_, ?_, by decide +kernel⟩
  · calc 32 * (((1 : Nat) : ℚ) * (2 ^ 1074)⁻¹) ≤ 32 * (1 * 1) := by
          push_cast
          gcongr
          exact inv_le_one_of_one_le₀ (one_le_pow₀ (by norm_num))
      _ < 2 ^ 6 := by norm_num
      _ ≤ 2 ^ 1024 := pow_le_pow_right₀ (by norm_num) (by omega)
  · rw [show (1074 : Nat) = 5 + 1069 from rfl, pow_add]
    generalize 1069 = e
    push_cast
    field_simp
    norm_num
/-- RoundingIsNearestEven: a tie goes to the even side, both ways. -/
theorem witness_rounding_ties : roundHalfEven 1 2 = 0 ∧ roundHalfEven 3 2 = 2 := by decide
/-- For EncoderBitFieldsRecoverTheArguments and EncodedToneIsNeverReserved. -/
theorem witness_bit_fields : encFrequency Params.documented 1 0x40705A147AE147AE#64 = .ok [0xAB#8, 0x1A#8] ∧
    encVolume Params.documented 2 9 = .ok [0xD6#8] ∧ encNoise Params.documented 1 2 = .ok [0xF6#8] := by decide +kernel
/-- For NoiseByteCollidesWithVolumeOfChannel3. -/
theorem witness_noise_collision : Params.documented.noiseBit4 = true ∧
    encNoise Params.documented 1 3 = .ok [0xF7#8] := by decide
/-- For DecodeOfEncodeIsTheInstruction (test_decode_psgw and its like: DecodedBytesAreTheEncoding). -/
theorem witness_decode_encode : (Instr.illegal 0x99#8).wellFormed = true ∧ (Instr.illegal 0x99#8).inStream = true ∧
    (Instr.waitN 65535#16).wellFormed = true ∧ (Instr.waitN 65535#16).inStream = true := by decide
/-- For PsgDecodeOfEncodeIsTheRow. -/
theorem witness_psg_decode : (Instr.pToneLatch 2#2 15#4).wellFormed = true ∧
    (Instr.pToneLatch 2#2 15#4).psgFormat? = some .toneLatch ∧
    encode Params.documented (.pToneLatch 2#2 15#4) = [0xCF#8] := by decide
/-- For PlacedWordIsWhatTheNextStepRuns. -/
theorem witness_placed_word : State.reset.buf.wf = true ∧ decodeTableWord 16 0x9F50 = some (.psgw 0x9F#8) := by decide
theorem witness_placed_word_decoding : (decoding p2 3 (-1)).buf.wf = true ∧ (decoding p2 3 (-1)).phase = .decode ∧
    decodeTableWord 8 0x66 = some .endData := by decide
/-- For PseudoInstructionsExpandToPsgw. -/
theorem witness_pseudo : (AsmLine.tone 2 1023).bytes Params.documented = some [0x50#8, 0xCF#8, 0x50#8, 0x3F#8] := by decide

/-- For StepKeepsTheInvariant. -/
theorem witness_step_keeps_inv : ∃ t, (decoding p2 14 0).Inv ∧ step (decoding p2 14 0) = .next t := ⟨_, by decide, rfl⟩
theorem witness_load_keeps_inv : ∃ t, (asking (song []) [.load ld1]).Inv ∧
    step (asking (song []) [.load ld1]) = .next t := ⟨_, by decide, rfl⟩
/-- For OnlyTicksUnderflowCanFault. -/
theorem witness_only_underflow : (asking (between p2 3 (-2 ^ 31) false) [.frame]).Inv ∧
    step (asking (between p2 3 (-2 ^ 31) false) [.frame]) = .fault .ticksUnderflow := ⟨by decide, rfl⟩
/-- For OnlyLoadCanBeRefused. -/
theorem witness_only_load : step (asking (song [])
    [.load { bytes := header (num 0x3B#8) v150 clk (num 0#8) }]) = .refused .loadLengthNegative := rfl
/-- For StepOnlyAppendsToTheTraces and OnlyLoadAndInitChangeTheStream. -/
theorem witness_next_of_request : ∃ t, step (asking (song p2) [.setVol 0 15]) = .next t := ⟨_, rfl⟩
/-- For FinishedChangesOnlyByEndAndReset, first clause. -/
theorem witness_finishes : ∃ t, (decoding p2 17 (-1)).Inv ∧ step (decoding p2 17 (-1)) = .next t ∧
    (decoding p2 17 (-1)).finished = false ∧ t.finished = true := ⟨_, by decide, rfl, rfl, rfl⟩
/-- For FinishedChangesOnlyByEndAndReset, second clause. -/
theorem witness_unfinishes : ∃ t, (asking (between p2 17 0 true) [.reset]).Inv ∧
    step (asking (between p2 17 0 true) [.reset]) = .next t ∧ (asking (between p2 17 0 true) [.reset]).finished = true ∧
    t.finished = false := ⟨_, by decide, rfl, rfl, rfl⟩
/-- For LoopingSongNeverFinishes. -/
theorem witness_looping : ∃ t, (decoding p2 17 (-1) (some 3)).Inv ∧ (decoding p2 17 (-1) (some 3)).loopValid = true ∧
    step (decoding p2 17 (-1) (some 3)) = .next t := ⟨_, by decide, rfl, rfl⟩
/-- For ErrorsLeaveTheRegistersUnchanged. -/
theorem witness_error : ∃ t, step (decoding [0x99#8] 0 0) = .next t ∧
    t.results = (decoding [0x99#8] 0 0).results ++
      [{ op := .frame, result := .error (.unknownOpcode 0 0x99#8), busLen := 0 }] := ⟨_, rfl, rfl⟩
theorem witness_still_decoding : ∃ t, step (decoding p2 3 0) = .next t ∧ t.phase = .decode := ⟨_, rfl, rfl⟩
/-- For FrameAfterErrorReplays: S9a. -/
theorem witness_replay : ∃ t, frameBigStep 5 (song [0x50#8, 0x9F#8, 0x99#8]) = some (.next t) ∧
    t.results = (song [0x50#8, 0x9F#8, 0x99#8]).results ++
      [{ op := .frame, result := .error (.unknownOpcode 2 0x99#8), busLen := 1 }] := ⟨_, rfl, rfl⟩
/-- For SmallStepsReachThePseudocodeResult. -/
theorem witness_small_steps : ∃ o, (asking (song p2) [.frame]).Requesting .frame [] ∧
    frameBigStep 5 { asking (song p2) [.frame] with requests := [] } = some o := ⟨_, by decide, rfl⟩
/-- For PseudocodeReachesTheSmallStepResult. -/
theorem witness_pseudocode : ∃ t, (asking (song [0x62#8]) [.frame]).Requesting .frame [] ∧ 0 < 2 ∧
    FrameRun 2 (asking (song [0x62#8]) [.frame]) (.next t) ∧ t.phase = .idle := by
  refine ⟨_, by decide, by decide, ⟨rfl, ?_⟩, rfl⟩
  intro m h0 h2
  obtain rfl : m = 1 := by omega
  exact ⟨_, rfl, rfl⟩
/-- For LoopOnTheEndItselfNeverEnds. -/
theorem witness_loop_on_end : (decoding [0x66#8] 0 (-1) (some 0)).phase = .decode ∧
    (decoding [0x66#8] 0 (-1) (some 0)).wOffset < (decoding [0x66#8] 0 (-1) (some 0)).len ∧
    (decoding [0x66#8] 0 (-1) (some 0)).buf.read 0 = 0x66#8 ∧ (decoding [0x66#8] 0 (-1) (some 0)).loopValid = true ∧
    (decoding [0x66#8] 0 (-1) (some 0)).loopOffset = (decoding [0x66#8] 0 (-1) (some 0)).wOffset := by decide
/-- For CanonicalMemoriesAreEqualByReads. -/
theorem witness_canonical : (Memory.ofBytes 0 p2).wf = true ∧ (Memory.write (Memory.write [] 1 0xB0#8) 0 0x50#8).wf = true := by
  decide

end Sys2Proof.Tests
end

/-! # The traces: BUS and the results grow at their ends, requests are taken from the front (O49) -/

namespace Sys2Proof.Machine

/-! What installing a song leaves of the traces. -/

@[simp] theorem install_bus (v : Song) (s : State) : (install v s).bus = s.bus := by
  unfold install setLoop
  cases v.loop <;> rfl
@[simp] theorem install_results (v : Song) (s : State) : (install v s).results = s.results := by
  unfold install setLoop
  cases v.loop <;> rfl
@[simp] theorem install_requests (v : Song) (s : State) : (install v s).requests = s.requests := by
  unfold install setLoop
  cases v.loop <;> rfl
@[simp] theorem install_params (v : Song) (s : State) : (install v s).params = s.params := by
  unfold install setLoop
  cases v.loop <;> rfl

/-- From `s` to `t` BUS was only appended to, at most one result was reported, stamped with the new BUS length, and
neither the parameters nor the requests changed (R36, R38, R42). -/
structure State.ExtendsTraces (s t : State) : Prop where
  bus : s.bus <+: t.bus
  results : t.results = s.results ∨ ∃ c, t.results = s.results ++ [c] ∧ c.busLen = t.bus.length
  params : t.params = s.params
  requests : t.requests = s.requests

/-- Reporting a result extends the traces of every earlier state whose results are still the same. -/
theorem State.ExtendsTraces.of_report {s u : State} (op : OpKind) (r : OpResult) (hbus : s.bus <+: u.bus)
    (hresults : u.results = s.results) (hparams : u.params = s.params) (hrequests : u.requests = s.requests) :
    s.ExtendsTraces (report op r u) where
  bus := hbus
  results := .inr ⟨_, by rw [report_results, hresults], rfl⟩
  params := hparams
  requests := hrequests

theorem raise_extendsTraces (op : OpKind) (e : ErrorKind) (s : State) : s.ExtendsTraces (raise op e s) :=
  .of_report op (.error e) List.prefix_rfl rfl rfl rfl

/-- A Turn writes at most the byte of its PSGW and reports at most the end of its FRAME. -/
theorem turn_extendsTraces {s t : State} (h : turn s = .next t) : s.ExtendsTraces t := by
  rcases turn_effects h with ⟨dd, -, rfl⟩ | ⟨w, k, rfl⟩ | ⟨-, rfl⟩ | ⟨-, -, -, rfl⟩ | ⟨e, rfl⟩
  · exact ⟨List.prefix_append s.bus [dd], .inl rfl, rfl, rfl⟩
  · exact .of_report .frame .ok List.prefix_rfl rfl rfl rfl
  · exact ⟨List.prefix_rfl, .inl rfl, rfl, rfl⟩
  · exact .of_report .frame .ok List.prefix_rfl rfl rfl rfl
  · exact raise_extendsTraces .frame e s

/-- The start of a FRAME writes nothing to BUS; the finished test and the early return report its end. -/
theorem startFrame_extendsTraces {s t : State} (h : startFrame s = .next t) : s.ExtendsTraces t := by
  rcases startFrame_cases h with ⟨-, rfl⟩ | ⟨w, -, -, -, rfl⟩ | ⟨w, -, -, -, rfl⟩
  · exact raise_extendsTraces .frame .endOfSong s
  · exact .of_report .frame .ok List.prefix_rfl rfl rfl rfl
  · exact ⟨List.prefix_rfl, .inl rfl, rfl, rfl⟩

/-- Every request but FRAME reports its result, after the bytes it gave to BUS. -/
theorem perform_extendsTraces {op : HostOp} {s t : State} (h : perform op s = .next t) : s.ExtendsTraces t := by
  rcases perform_cases h with ⟨-, hframe⟩ | ⟨-, rfl⟩ | ⟨-, rfl⟩ | ⟨src, v, -, -, rfl⟩ | ⟨k, e, -, rfl⟩ |
    ⟨k, bs, -, rfl⟩ | ⟨-, rfl⟩
  · exact startFrame_extendsTraces hframe
  · exact .of_report .init .ok (by simp) (by simp) (by simp) (by simp)
  · exact .of_report .reset .ok (by simp) (by simp) (by simp) (by simp)
  · exact .of_report .load .ok (by simp) (by simp) (by simp) (by simp)
  · exact raise_extendsTraces k e s
  · exact .of_report k .ok (by simp) (by simp) (by simp) (by simp)
  · exact .of_report .readStatus (.status (statusOf s)) List.prefix_rfl rfl rfl rfl

/-- Settles O49: a Turn and an idle step without a request keep the requests; otherwise the step performs the first
request on the state it leaves the others in. -/
theorem stepOnlyAppendsToTheTraces : Obligations.StepOnlyAppendsToTheTraces := by
  intro s t h
  rcases step_cases h with ⟨-, hturn⟩ | ⟨-, -, rfl⟩ | ⟨op, rest, hidle, hreq, hperform⟩
  · obtain ⟨hbus, hresults, hparams, hrequests⟩ := turn_extendsTraces hturn
    exact ⟨hbus, hresults, hparams, .inl hrequests⟩
  · exact ⟨List.prefix_rfl, .inl rfl, rfl, .inl rfl⟩
  · obtain ⟨hbus, hresults, hparams, hrequests⟩ := perform_extendsTraces hperform
    exact ⟨hbus, hresults, hparams, .inr ⟨hidle, op, by rw [hreq, hrequests]⟩⟩

end Sys2Proof.Machine

/-! # The state family: what every step keeps of the registers, STREAM and the loop (O46, O24, O47, O50, O51, O53, O8,
O12, O22, O25, O45) -/

namespace Sys2Proof.Machine

/-! ## Where a decoded command stands (R74, R101) -/

theorem decode_endData_head {b : Byte} {bs r : List Byte} (h : decode (b :: bs) = .ok (.endData, r)) : b = 0x66#8 := by
  simp only [decode] at h
  split_ifs at h with h50 h61 h62 h66
  · split at h <;> cases h
  · split at h <;> cases h
  · cases h
  · exact h66
  · cases h

/-- A command that is read starts below LEN, and END is the byte 0x66 there. -/
theorem decode_fetchBytes_ok {s : State} {i : Instr} {r : List Byte} (h : decode (fetchBytes s) = .ok (i, r)) :
    s.wOffset < s.len ∧ (i = .endData → s.buf.read s.wOffset = 0x66#8) := by
  by_cases hlt : s.wOffset < s.len
  · rw [fetchBytes_cons hlt] at h
    refine ⟨hlt, ?_⟩
    rintro rfl
    exact decode_endData_head h
  · rw [fetchBytes_eq, show s.len - s.wOffset = 0 by omega] at h
    cases h

/-! ## The invariant after each shared operation -/

theorem State.WorkingOk.of_idle {s : State} (hidle : s.phase = .idle) (hw : s.wOffset < 2 ^ s.params.aw) :
    s.WorkingOk := ⟨hw, fun hdecode => by simp [hidle] at hdecode⟩

/-- The working copies are within their widths after an operation that ends a FRAME (R18, U5). -/
theorem leaveFrame_workingOk (s : State) : (leaveFrame s).WorkingOk :=
  .of_idle rfl (Nat.mod_lt _ (Nat.two_pow_pos _))

theorem State.PlaybackOk.of_zero {s : State} (hoffset : s.offset = 0) (hticks : s.ticks = 0#32)
    (hfin : s.finished = false) : s.PlaybackOk := by
  simp [State.PlaybackOk, hoffset, hticks, hfin]

theorem report_inv {op : OpKind} {r : OpResult} {s : State} : (report op r s).Inv ↔ s.Inv := Iff.rfl

/-- Leaving a FRAME needs nothing of the working copies that are discarded. -/
theorem leaveFrame_inv {s : State} (hstream : s.StreamOk) (hloop : s.LoopOk) (hplayback : s.PlaybackOk) :
    (leaveFrame s).Inv := ⟨hstream, hloop, hplayback, leaveFrame_workingOk s⟩

theorem raise_inv {op : OpKind} {e : ErrorKind} {s : State} (h : s.Inv) : (raise op e s).Inv := by
  obtain ⟨hstream, hloop, hplayback, -⟩ := h
  exact leaveFrame_inv hstream hloop hplayback

/-- A commit needs of the working copies what R17 and R93 say of the registers they become (R78). -/
theorem commit_inv {s : State} (hstream : s.StreamOk) (hloop : s.LoopOk) (hoffset : s.wOffset ≤ s.len)
    (hticks : s.wTicks.toInt ≤ 89)
    (hfin : s.wFin = true → s.wOffset < s.len ∧ s.buf.read s.wOffset = 0x66#8 ∧ s.loopValid = false) :
    (commit s).Inv :=
  leaveFrame_inv (s := { s with offset := s.wOffset, ticks := s.wTicks, finished := s.wFin }) hstream hloop
    ⟨hoffset, hticks, hfin⟩

theorem busWriteAll_inv {s : State} (h : s.Inv) (bs : List Byte) : (busWriteAll s bs).Inv := by
  rw [busWriteAll_eq]
  exact h

/-- Zeroing PlaybackState needs nothing of the registers it zeroes (R161). -/
theorem resetPlayback_inv {s : State} (hstream : s.StreamOk) (hloop : s.LoopOk) (hidle : s.phase = .idle)
    (hw : s.wOffset < 2 ^ s.params.aw) : (resetPlayback s).Inv := by
  unfold resetPlayback
  rw [busWriteAll_eq]
  exact ⟨hstream, hloop, .of_zero rfl rfl rfl, .of_idle hidle hw⟩

/-! ## The invariant after a LOAD (R168, R169) -/

@[simp] theorem install_phase (v : Song) (s : State) : (install v s).phase = s.phase := by
  unfold install setLoop
  cases v.loop <;> rfl
@[simp] theorem install_wOffset (v : Song) (s : State) : (install v s).wOffset = s.wOffset := by
  unfold install setLoop
  cases v.loop <;> rfl
@[simp] theorem install_buf (v : Song) (s : State) : (install v s).buf = Memory.ofBytes 0 v.payload := by
  unfold install setLoop
  cases v.loop <;> rfl
@[simp] theorem install_len (v : Song) (s : State) : (install v s).len = v.payload.length := by
  unfold install setLoop
  cases v.loop <;> rfl

theorem install_streamOk {v : Song} {s : State} (hlen : v.payload.length < 2 ^ s.params.aw) :
    (install v s).StreamOk := by
  refine ⟨?_, fun c hc => ?_, ?_⟩
  · rw [install_buf]
    exact Memory.wf_ofBytes 0 v.payload
  · rw [install_buf] at hc
    simpa using Memory.lt_of_mem_ofBytes hc
  · simpa using hlen

theorem install_loopOk {v : Song} {s : State} (hlen : v.payload.length < 2 ^ s.params.aw)
    (hloop : ∀ k, v.loop = some k → k ≤ v.payload.length) : (install v s).LoopOk := by
  unfold install
  cases hv : v.loop with
  | none => exact ⟨Nat.mod_lt _ (Nat.two_pow_pos _), nofun⟩
  | some k => exact ⟨(hloop k hv).trans_lt hlen, fun _ => hloop k hv⟩

/-! ## The invariant after a step (R17, R93) -/

/-- A STREAM row decoded at W_OFFSET keeps the invariant. W_TICKS is at most 0 during a FRAME, so a wait leaves TICKS
at most 89 (R93). -/
theorem exec_keeps_inv {i : Instr} {s t : State} (h : s.Inv) (hphase : s.phase = .decode) (hstream : i.inStream = true)
    (hlt : s.wOffset < s.len) (hend : i = .endData → s.buf.read s.wOffset = 0x66#8) (hexec : exec i s = .next t) :
    t.Inv := by
  have hinv := h
  obtain ⟨hbuf, hloop, hplayback, -, hworking⟩ := h
  have ⟨_, _, hlen⟩ := hbuf
  have ⟨hloopWidth, hloopTarget⟩ := hloop
  obtain ⟨-, hticks, hfin, hfinished⟩ := hworking hphase
  rcases exec_cases hexec with ⟨dd, -, hp, rfl⟩ | ⟨n, w, -, hp, hw, rfl⟩ | ⟨w, -, hw, rfl⟩ | ⟨-, hvalid, rfl⟩ |
    ⟨hi, hvalid, rfl⟩ | ⟨e, -, rfl⟩ | ⟨hpsg, -⟩
  · exact ⟨hbuf, hloop, hplayback, hp.trans_lt hlen, fun _ => ⟨hp, hticks, hfin, hfinished⟩⟩
  · have hframes := framesOf_le n
    exact commit_inv hbuf hloop hp (hw.trans_le (by omega)) (by simp [hfin])
  · exact commit_inv hbuf hloop hlt (hw.trans_le (by omega)) (by simp [hfin])
  · exact ⟨hbuf, hloop, hplayback, hloopWidth, fun _ => ⟨hloopTarget hvalid, hticks, hfin, hfinished⟩⟩
  · exact commit_inv hbuf hloop hlt.le (by simp only [setFin_wTicks]; omega) fun _ => ⟨hlt, hend hi, hvalid⟩
  · exact raise_inv hinv
  · simp [hstream] at hpsg

theorem turn_keeps_inv {s t : State} (h : s.Inv) (hphase : s.phase = .decode) (hturn : turn s = .next t) : t.Inv := by
  rcases turn_cases hturn with ⟨i, r, hdecode, hexec⟩ | rfl
  · obtain ⟨hlt, hend⟩ := decode_fetchBytes_ok hdecode
    exact exec_keeps_inv h hphase (decode_inStream hdecode) hlt hend hexec
  · exact raise_inv h

/-- Entering the decode phase makes the working copies what R72 and R73 say. -/
theorem startFrame_keeps_inv {s t : State} (h : s.Inv) (hstart : startFrame s = .next t) : t.Inv := by
  have hinv := h
  obtain ⟨hbuf, hloop, ⟨hoffset, hticks, hfin⟩, -⟩ := h
  have ⟨_, _, hlen⟩ := hbuf
  rcases startFrame_cases hstart with ⟨-, rfl⟩ | ⟨w, -, hw, -, rfl⟩ | ⟨w, hunfinished, -, hw, rfl⟩
  · exact raise_inv hinv
  · have hbound : w.toInt ≤ 89 := by omega
    exact leaveFrame_inv (s := { s with ticks := w }) hbuf hloop ⟨hoffset, hbound, hfin⟩
  · exact ⟨hbuf, hloop, ⟨hoffset, hticks, hfin⟩, hoffset.trans_lt hlen, fun _ => ⟨hoffset, hw, rfl, hunfinished⟩⟩

theorem initOp_inv (s : State) :
    (report .init .ok (leaveFrame (clearLoop { resetPlayback s with buf := [], len := 0 }))).Inv := by
  have hplayback : (clearLoop { resetPlayback s with buf := [], len := 0 }).PlaybackOk :=
    .of_zero (by simp) (by simp) (by simp)
  exact report_inv.mpr
    (leaveFrame_inv ⟨rfl, nofun, Nat.two_pow_pos _⟩ ⟨Nat.mod_lt _ (Nat.two_pow_pos _), nofun⟩ hplayback)

theorem perform_keeps_inv {op : HostOp} {s t : State} (h : s.Inv) (hidle : s.phase = .idle)
    (hperform : perform op s = .next t) : t.Inv := by
  have hinv := h
  obtain ⟨hbuf, hloop, -, hw, -⟩ := h
  rcases perform_cases hperform with ⟨-, hframe⟩ | ⟨-, rfl⟩ | ⟨-, rfl⟩ | ⟨src, v, -, hsong, rfl⟩ | ⟨k, e, -, rfl⟩ |
    ⟨k, bs, -, rfl⟩ | ⟨-, rfl⟩
  · exact startFrame_keeps_inv hinv hframe
  · exact initOp_inv s
  · exact report_inv.mpr (resetPlayback_inv hbuf hloop hidle hw)
  · obtain ⟨hlen, htarget⟩ := readSong_song hsong
    exact report_inv.mpr (resetPlayback_inv (install_streamOk hlen) (install_loopOk hlen htarget)
      (by simpa using hidle) (by simpa using hw))
  · exact raise_inv hinv
  · exact report_inv.mpr (busWriteAll_inv hinv bs)
  · exact report_inv.mpr hinv

/-- Settles O46: a Turn and a request each keep the invariant, and taking a request off the list does not touch it. -/
theorem stepKeepsTheInvariant : Obligations.StepKeepsTheInvariant := by
  intro s t h hstep
  rcases step_cases hstep with ⟨hphase, hturn⟩ | ⟨-, -, rfl⟩ | ⟨op, rest, hidle, -, hperform⟩
  · exact turn_keeps_inv h hphase hturn
  · exact h
  · exact perform_keeps_inv (s := { s with requests := rest }) h hidle hperform

/-- Settles O45: nothing is loaded, and PlaybackState and the working copies are zero. -/
theorem powerOnStateMeetsTheInvariant : Obligations.PowerOnStateMeetsTheInvariant :=
  ⟨⟨rfl, nofun, Nat.two_pow_pos _⟩, ⟨Nat.two_pow_pos _, nofun⟩, .of_zero rfl rfl rfl,
    .of_idle rfl (Nat.two_pow_pos _)⟩

end Sys2Proof.Machine

namespace Sys2Proof.Machine

/-! ## Requests (R150): the status read and the start of a FRAME -/

/-- An idle step performs the first request on the state it leaves the others in. -/
theorem step_of_requesting {s : State} {op : HostOp} {rest : List HostOp} (h : s.Requesting op rest) :
    step s = perform op { s with requests := rest } := by
  obtain ⟨hidle, hreq⟩ := h
  simp only [step, stepState, hidle, hreq]

/-- Settles O8: the status read only reports, so every register is the one it had. -/
theorem statusReadReturnsTheRegisters : Obligations.StatusReadReturnsTheRegisters := by
  intro s rest h
  have ⟨hidle, _⟩ := h
  exact ⟨_, statusOf s, step_of_requesting h, ⟨rfl, rfl, rfl, rfl, rfl, rfl, rfl, rfl⟩, rfl, rfl, ⟨hidle, rfl⟩,
    rfl, rfl, rfl, rfl, rfl, rfl⟩

/-- The start of a FRAME faults exactly at the one value of TICKS whose decrement leaves 32 bits (R13, U1). -/
theorem startFrame_fault_iff {s : State} {e : Fault} :
    startFrame s = .fault e ↔ e = .ticksUnderflow ∧ s.finished = false ∧ s.ticks.toInt = -2 ^ 31 := by
  have hbounds := ticks_bounds s.ticks
  unfold startFrame
  cases hfin : s.finished with
  | true => simp
  | false =>
    cases hnarrow : narrowTicks (s.ticks.toInt - 1) with
    | none =>
      have hlowest : s.ticks.toInt = -2 ^ 31 := by
        rcases narrowTicks_none.mp hnarrow with hlow | hhigh <;> omega
      simp [hlowest, eq_comm]
    | some w =>
      have hw := narrowTicks_some hnarrow
      have hwbounds := ticks_bounds w
      have hhigher : s.ticks.toInt ≠ -2 ^ 31 := by omega
      simp only [hhigher, and_false, iff_false, Bool.false_eq_true, if_false]
      split <;> simp

/-- Settles O12: FRAME begins with the decrement of TICKS, which leaves 32 bits. -/
theorem frameFaultsOnTicksUnderflow : Obligations.FrameFaultsOnTicksUnderflow := by
  intro s rest h hfin hticks
  rw [step_of_requesting h]
  exact startFrame_fault_iff.mpr ⟨rfl, hfin, hticks⟩

/-! ## Faults of the rows and of a step (R13, R93, U1) -/

theorem withWTicks_overflow {v : Int} (hv : 2 ^ 31 ≤ v) (s : State) (k : State → Result) :
    withWTicks s v k = .fault .ticksOverflow := by
  unfold withWTicks
  rw [narrowTicks_none.mpr (.inr hv)]

/-- Settles O22: both waits add to W_TICKS through `withWTicks`, once WAITN has its operand. -/
theorem waitFaultsOnTicksOverflow : Obligations.WaitFaultsOnTicksOverflow := by
  refine fun s => ⟨fun n hpresent hsum => ?_, fun hsum => ?_⟩
  · have hbytes : bytesPresent s 3 = true := decide_eq_true hpresent
    simp only [exec, execWaitN, hbytes, if_true]
    exact withWTicks_overflow hsum s _
  · simp only [exec, execWait1]
    exact withWTicks_overflow hsum s _

/-- Where what follows the addition cannot fault, only a sum that leaves 32 bits does. -/
theorem withWTicks_fault {s : State} {v : Int} {k : State → State} {e : Fault}
    (h : withWTicks s v (fun u => .next (k u)) = .fault e) : v < -2 ^ 31 ∨ 2 ^ 31 ≤ v := by
  unfold withWTicks at h
  split at h
  · cases h
  · next hnarrow => exact narrowTicks_none.mp hnarrow

/-- A row faults only where W_TICKS is within 89 frames of its upper bound: no wait adds more (R93). -/
theorem exec_fault {i : Instr} {s : State} {e : Fault} (h : exec i s = .fault e) : 2 ^ 31 ≤ s.wTicks.toInt + 89 := by
  have hbounds := ticks_bounds s.wTicks
  cases i with
  | psgw dd =>
    simp only [exec, execPsgw] at h
    split at h <;> cases h
  | waitN n =>
    simp only [exec, execWaitN] at h
    split at h
    · have hframes := framesOf_le n
      rcases withWTicks_fault h with hlow | hhigh <;> omega
    · cases h
  | wait1 =>
    simp only [exec, execWait1] at h
    rcases withWTicks_fault h with hlow | hhigh <;> omega
  | endData =>
    simp only [exec, execEndData] at h
    split at h <;> cases h
  | illegal b => cases h
  | pToneLatch ch lo => cases h
  | pToneData hi => cases h
  | pVol ch att => cases h
  | pNoise mode rate => cases h

theorem turn_fault {s : State} {e : Fault} (h : turn s = .fault e) : 2 ^ 31 ≤ s.wTicks.toInt + 89 := by
  unfold turn at h
  split at h
  · exact exec_fault h
  · cases h

theorem encoderOp_ne_fault {op : OpKind} {rows : Except ErrorKind (List Instr)} {s : State} {e : Fault}
    (hrows : ∀ is, rows = .ok is → ∀ i ∈ is, i.inStream = false) : encoderOp op rows s ≠ .fault e := by
  cases rows with
  | error k => nofun
  | ok is =>
    rw [encoderOp_ok op (hrows is rfl)]
    nofun

/-- FRAME is the only request that can fault. -/
theorem perform_fault {op : HostOp} {s : State} {e : Fault} (h : perform op s = .fault e) :
    op = .frame ∧ startFrame s = .fault e := by
  cases op with
  | init => cases h
  | reset => cases h
  | load src =>
    simp only [perform, loadOp] at h
    split at h <;> cases h
  | frame => exact ⟨rfl, h⟩
  | setFreq ch f => exact absurd h (encoderOp_ne_fault fun _ => frequencyRows_psg)
  | setVol ch vol => exact absurd h (encoderOp_ne_fault fun _ => volumeRows_psg)
  | setNoise mode rate => exact absurd h (encoderOp_ne_fault fun _ => noiseRows_psg)
  | readStatus => cases h

/-- Every fault of a step is a Turn's or the start of a FRAME's. -/
theorem step_fault_cases {s : State} {e : Fault} (h : step s = .fault e) :
    (s.phase = .decode ∧ turn s = .fault e) ∨
    (∃ rest, s.Requesting .frame rest ∧ startFrame { s with requests := rest } = .fault e) := by
  unfold step stepState at h
  split at h
  · next hphase => exact .inl ⟨hphase, h⟩
  · next hidle =>
    split at h
    · cases h
    · next op rest hreq =>
      obtain ⟨rfl, hstart⟩ := perform_fault h
      exact .inr ⟨rest, ⟨hidle, hreq⟩, hstart⟩

/-- Settles O47: during a FRAME W_TICKS is at most 0, too low for a wait to overflow. -/
theorem onlyTicksUnderflowCanFault : Obligations.OnlyTicksUnderflowCanFault := by
  intro s e hinv h
  obtain ⟨-, -, -, -, hworking⟩ := hinv
  rcases step_fault_cases h with ⟨hphase, hturn⟩ | ⟨rest, ⟨hidle, hreq⟩, hstart⟩
  · obtain ⟨-, hticks, -, -⟩ := hworking hphase
    have hoverflow := turn_fault hturn
    omega
  · obtain ⟨he, hfin, hlowest⟩ := startFrame_fault_iff.mp hstart
    exact ⟨he, hidle, by rw [hreq]; rfl, hfin, hlowest⟩

/-! ## What each row leaves unchanged and writes to BUS (R21, R40, R101, R102) -/

/-- No row changes STREAM, the loop, the parameters or the requests. -/
theorem exec_frame {i : Instr} {s t : State} (h : exec i s = .next t) :
    s.SameStream t ∧ t.requests = s.requests := by
  rcases exec_cases h with ⟨dd, -, -, rfl⟩ | ⟨n, w, -, -, -, rfl⟩ | ⟨w, -, -, rfl⟩ | ⟨-, -, rfl⟩ | ⟨-, -, rfl⟩ |
    ⟨e, -, rfl⟩ | ⟨-, rfl⟩
  case inr.inr.inr.inr.inr.inr => simp [State.SameStream]
  all_goals exact ⟨⟨rfl, rfl, rfl, rfl, rfl⟩, rfl⟩

/-- PSGW by its own bound test (R90). -/
theorem exec_psgw_eq (dd : Byte) (s : State) :
    exec (.psgw dd) s =
      if s.wOffset + 1 < s.len then .next { busWrite s dd with wOffset := s.wOffset + 2 }
      else .next (raiseEndOfStream s) := by
  simp only [exec, execPsgw, bytesPresent, decide_eq_true_eq]
  rfl

theorem exec_psgw_effect {dd : Byte} {s t : State} (h : exec (.psgw dd) s = .next t) :
    t.ticks = s.ticks ∧ t.finished = s.finished ∧ t.offset = s.offset ∧
      t.bus = if s.wOffset + 1 < s.len then s.bus ++ [dd] else s.bus := by
  rw [exec_psgw_eq] at h
  split at h <;> cases h
  · next hpresent => exact ⟨rfl, rfl, rfl, (if_pos hpresent).symm⟩
  · next hmissing => exact ⟨rfl, rfl, rfl, (if_neg hmissing).symm⟩

/-- Of the STREAM rows only PSGW writes to BUS. -/
theorem exec_bus_of_inStream {i : Instr} {s t : State} (hpsgw : ∀ dd, i ≠ .psgw dd) (hstream : i.inStream = true)
    (h : exec i s = .next t) : t.bus = s.bus := by
  rcases exec_cases h with ⟨dd, hi, -⟩ | ⟨n, w, -, -, -, rfl⟩ | ⟨w, -, -, rfl⟩ | ⟨-, -, rfl⟩ | ⟨-, -, rfl⟩ |
    ⟨e, -, rfl⟩ | ⟨hpsg, -⟩
  case inl => exact absurd hi (hpsgw dd)
  case inr.inr.inr.inr.inr.inr => simp [hstream] at hpsg
  all_goals rfl

/-- A PSG output row appends its encoding to BUS and changes nothing else (R21). -/
theorem exec_psgRow_eq {i : Instr} (h : i.inStream = false) (s : State) :
    exec i s = .next { s with bus := s.bus ++ encode s.params i } := by
  rw [exec_psgRow h, busWriteAll_eq]

/-- Settles O24: the frame of all rows, then PSGW, the other STREAM rows and the PSG output rows by their own lemmas. -/
theorem rowsLeaveStreamAndLoopUnchanged : Obligations.RowsLeaveStreamAndLoopUnchanged := by
  intro i s t h
  obtain ⟨hsame, hrequests⟩ := exec_frame h
  refine ⟨hsame, fun a => by rw [hsame.1], hrequests, ?_, fun hpsgw hstream => exec_bus_of_inStream hpsgw hstream h, ?_⟩
  · rintro dd rfl
    exact exec_psgw_effect h
  · intro hpsg
    rw [exec_psgRow_eq hpsg] at h
    cases h
    rfl

/-! The bytes of R58 as numbers: the fields of a format do not overlap, so its `|` is a sum. -/

theorem toneLatchByte_eq_ofNat : ∀ (ch : BitVec 2) (lo : BitVec 4),
    toneLatchByte ch lo = BitVec.ofNat 8 (0x80 + 32 * ch.toNat + lo.toNat) := by decide

theorem toneDataByte_eq_ofNat (hi : BitVec 6) : toneDataByte hi = BitVec.ofNat 8 hi.toNat :=
  (BitVec.ofNat_toNat 8 hi).symm

theorem volByte_eq_ofNat : ∀ (ch : BitVec 2) (att : BitVec 4),
    volByte ch att = BitVec.ofNat 8 (0x90 + 32 * ch.toNat + att.toNat) := by decide

theorem noiseByte_eq_ofNat : ∀ (bit4 : Bool) (mode : BitVec 1) (rate : BitVec 2),
    noiseByte bit4 mode rate = BitVec.ofNat 8 (0xE0 + (if bit4 then 16 else 0) + 4 * mode.toNat + rate.toNat) := by
  decide

/-- Settles O25: each row appends its encoding, whose byte is the sum of its fields. -/
theorem psgRowsWriteTheirByte : Obligations.PsgRowsWriteTheirByte := by
  refine fun s => ⟨fun ch lo => ?_, fun hi => ?_, fun ch att => ?_, fun mode rate => ?_⟩
  · rw [exec_psgRow_eq rfl, encode, toneLatchByte_eq_ofNat]
  · rw [exec_psgRow_eq rfl, encode, toneDataByte_eq_ofNat]
  · rw [exec_psgRow_eq rfl, encode, volByte_eq_ofNat]
  · rw [exec_psgRow_eq rfl, encode, noiseByte_eq_ofNat]

/-! ## Who changes STREAM and the loop (R40, R102) -/

theorem turn_sameStream {s t : State} (h : turn s = .next t) : s.SameStream t := by
  rcases turn_cases h with ⟨i, r, -, hexec⟩ | rfl
  · exact (exec_frame hexec).1
  · exact ⟨rfl, rfl, rfl, rfl, rfl⟩

theorem startFrame_sameStream {s t : State} (h : startFrame s = .next t) : s.SameStream t := by
  rcases startFrame_cases h with ⟨-, rfl⟩ | ⟨w, -, -, -, rfl⟩ | ⟨w, -, -, -, rfl⟩
  all_goals exact ⟨rfl, rfl, rfl, rfl, rfl⟩

theorem perform_sameStream {op : HostOp} {s t : State} (h : perform op s = .next t) :
    s.SameStream t ∨ op = .init ∨ ∃ src, op = .load src := by
  rcases perform_cases h with ⟨-, hframe⟩ | ⟨hop, -⟩ | ⟨-, rfl⟩ | ⟨src, v, hop, -⟩ | ⟨k, e, -, rfl⟩ |
    ⟨k, bs, -, rfl⟩ | ⟨-, rfl⟩
  · exact .inl (startFrame_sameStream hframe)
  · exact .inr (.inl hop)
  · exact .inl (by simp [State.SameStream])
  · exact .inr (.inr ⟨src, hop⟩)
  · exact .inl ⟨rfl, rfl, rfl, rfl, rfl⟩
  · exact .inl (by simp [State.SameStream])
  · exact .inl ⟨rfl, rfl, rfl, rfl, rfl⟩

/-- Settles O50: a Turn leaves STREAM, and of the requests only INIT and LOAD do not. -/
theorem onlyLoadAndInitChangeTheStream : Obligations.OnlyLoadAndInitChangeTheStream := by
  intro s t h
  rcases step_cases h with ⟨-, hturn⟩ | ⟨-, -, rfl⟩ | ⟨op, rest, hidle, hreq, hperform⟩
  · exact .inl (turn_sameStream hturn)
  · exact .inl ⟨rfl, rfl, rfl, rfl, rfl⟩
  · rcases perform_sameStream hperform with hsame | rfl | ⟨src, rfl⟩
    · exact .inl hsame
    · exact .inr ⟨hidle, .inl (by rw [hreq]; rfl)⟩
    · exact .inr ⟨hidle, .inr ⟨src, by rw [hreq]; rfl⟩⟩

/-! ## Who changes FINISHED (R12, R96) -/

/-- A Turn that sets FINISHED, W_FIN being 0, is an END without a loop. -/
theorem turn_sets_finished {s t : State} (h : turn s = .next t) (hfin : s.wFin = false) (hbefore : s.finished = false)
    (hafter : t.finished = true) : s.wOffset < s.len ∧ s.buf.read s.wOffset = 0x66#8 ∧ s.loopValid = false := by
  rcases turn_effects h with ⟨dd, -, rfl⟩ | ⟨w, k, rfl⟩ | ⟨-, rfl⟩ | ⟨hvalid, hlt, hread, -⟩ | ⟨e, rfl⟩
  case inr.inr.inr.inl => exact ⟨hlt, hread, hvalid⟩
  all_goals simp [hfin, hbefore] at hafter

theorem startFrame_finished {s t : State} (h : startFrame s = .next t) : t.finished = s.finished := by
  rcases startFrame_cases h with ⟨-, rfl⟩ | ⟨w, -, -, -, rfl⟩ | ⟨w, -, -, -, rfl⟩
  all_goals rfl

/-- No request sets FINISHED, and only INIT, RESET and LOAD clear it. -/
theorem perform_finished {op : HostOp} {s t : State} (h : perform op s = .next t) :
    t.finished = s.finished ∨ (t.finished = false ∧ (op = .init ∨ op = .reset ∨ ∃ src, op = .load src)) := by
  rcases perform_cases h with ⟨-, hframe⟩ | ⟨hop, rfl⟩ | ⟨hop, rfl⟩ | ⟨src, v, hop, -, rfl⟩ | ⟨k, e, -, rfl⟩ |
    ⟨k, bs, -, rfl⟩ | ⟨-, rfl⟩
  · exact .inl (startFrame_finished hframe)
  · exact .inr ⟨by simp, .inl hop⟩
  · exact .inr ⟨by simp, .inr (.inl hop)⟩
  · exact .inr ⟨by simp, .inr (.inr ⟨src, hop⟩)⟩
  · exact .inl rfl
  · exact .inl (by simp)
  · exact .inl rfl

/-- Settles O51: during a FRAME the invariant has FINISHED and W_FIN at 0. -/
theorem finishedChangesOnlyByEndAndReset : Obligations.FinishedChangesOnlyByEndAndReset := by
  intro s t hinv h
  obtain ⟨-, -, -, -, hworking⟩ := hinv
  rcases step_cases h with ⟨hphase, hturn⟩ | ⟨-, -, rfl⟩ | ⟨op, rest, hidle, hreq, hperform⟩
  · obtain ⟨-, -, hfin, hunfinished⟩ := hworking hphase
    exact ⟨fun hbefore hafter => ⟨hphase, turn_sets_finished hturn hfin hbefore hafter⟩,
      fun hbefore => by simp [hunfinished] at hbefore⟩
  · exact ⟨fun hbefore hafter => by simp [hbefore] at hafter, fun hbefore hafter => by simp [hbefore] at hafter⟩
  · rw [hreq]
    rcases perform_finished hperform with hsame | ⟨hcleared, hop⟩
    · exact ⟨fun hbefore hafter => by simp [hsame, hbefore] at hafter,
        fun hbefore hafter => by simp [hsame, hbefore] at hafter⟩
    · exact ⟨fun _ hafter => by simp [hcleared] at hafter, fun _ _ => ⟨hidle, by simpa using hop⟩⟩

/-! ## Errors, and steps that end no operation (R140, D4, D12) -/

/-- The three ways a step from `s` leaves the results: nothing is reported and no register changes; an error is raised
on the whole of `s`; or an operation ends without an error. -/
inductive State.Ends (s : State) : State → Prop where
  | quiet {t : State} (hsame : s.SameRegisters t) (hresults : t.results = s.results) : s.Ends t
  | error (op : OpKind) (e : ErrorKind) : s.Ends (raise op e s)
  | success {u : State} (op : OpKind) (r : OpResult) (hidle : u.phase = .idle) (hresults : u.results = s.results)
      (hr : ∀ e, r ≠ .error e) : s.Ends (report op r u)

theorem turn_ends {s t : State} (h : turn s = .next t) : s.Ends t := by
  rcases turn_effects h with ⟨dd, -, rfl⟩ | ⟨w, k, rfl⟩ | ⟨-, rfl⟩ | ⟨-, -, -, rfl⟩ | ⟨e, rfl⟩
  · exact .quiet ⟨rfl, rfl, rfl, rfl, rfl, rfl, rfl, rfl⟩ rfl
  · exact .success .frame .ok rfl rfl nofun
  · exact .quiet ⟨rfl, rfl, rfl, rfl, rfl, rfl, rfl, rfl⟩ rfl
  · exact .success .frame .ok rfl rfl nofun
  · exact .error .frame e

theorem startFrame_ends {s t : State} (h : startFrame s = .next t) : s.Ends t := by
  rcases startFrame_cases h with ⟨-, rfl⟩ | ⟨w, -, -, -, rfl⟩ | ⟨w, -, -, -, rfl⟩
  · exact .error .frame .endOfSong
  · exact .success .frame .ok rfl rfl nofun
  · exact .quiet ⟨rfl, rfl, rfl, rfl, rfl, rfl, rfl, rfl⟩ rfl

theorem perform_ends {op : HostOp} {s t : State} (hidle : s.phase = .idle) (h : perform op s = .next t) : s.Ends t := by
  rcases perform_cases h with ⟨-, hframe⟩ | ⟨-, rfl⟩ | ⟨-, rfl⟩ | ⟨src, v, -, -, rfl⟩ | ⟨k, e, -, rfl⟩ |
    ⟨k, bs, -, rfl⟩ | ⟨-, rfl⟩
  · exact startFrame_ends hframe
  · exact .success .init .ok rfl (by simp) nofun
  · exact .success .reset .ok (by simpa using hidle) (by simp) nofun
  · exact .success .load .ok (by simpa using hidle) (by simp) nofun
  · exact .error k e
  · exact .success k .ok (by simpa using hidle) (by simp) nofun
  · exact .success .readStatus _ hidle rfl nofun

theorem step_ends {s t : State} (h : step s = .next t) : ∃ rest, { s with requests := rest : State }.Ends t := by
  rcases step_cases h with ⟨-, hturn⟩ | ⟨-, -, rfl⟩ | ⟨op, rest, hidle, -, hperform⟩
  · exact ⟨s.requests, turn_ends hturn⟩
  · exact ⟨t.requests, .quiet ⟨rfl, rfl, rfl, rfl, rfl, rfl, rfl, rfl⟩ rfl⟩
  · exact ⟨rest, perform_ends hidle hperform⟩

/-- Settles O53: of the three ways to end only `error` reports an error, and only `quiet` leaves a FRAME decoding. -/
theorem errorsLeaveTheRegistersUnchanged : Obligations.ErrorsLeaveTheRegistersUnchanged := by
  intro s t h
  obtain ⟨rest, hends⟩ := step_ends h
  cases hends with
  | quiet hsame hresults =>
    exact ⟨fun op e n hreported => by simp [hresults] at hreported, fun _ => ⟨hsame, hresults⟩⟩
  | error op e =>
    refine ⟨fun _ _ n hreported => ⟨⟨rfl, rfl, rfl, rfl, rfl, rfl, rfl, rfl⟩, rfl, rfl, ?_⟩, nofun⟩
    simp only [raise_results, List.append_cancel_left_eq, List.cons.injEq, Completion.mk.injEq] at hreported
    obtain ⟨⟨-, -, hn⟩, -⟩ := hreported
    exact hn.symm
  | success op r hidle hresults hr =>
    refine ⟨fun _ e n hreported => ?_, fun hdecode => by simp [hidle] at hdecode⟩
    simp only [report_results, hresults, List.append_cancel_left_eq, List.cons.injEq, Completion.mk.injEq] at hreported
    obtain ⟨⟨-, hresult, -⟩, -⟩ := hreported
    exact absurd hresult (hr e)

end Sys2Proof.Machine

/-! # STREAM's canonical form: the reads decide the list of cells (O58) -/

namespace Sys2Proof.Machine.Memory

theorem wfFrom_cell_iff {lo k : Nat} {b : Byte} {m : Memory} :
    wfFrom lo ((k, b) :: m) = true ↔ lo ≤ k ∧ b ≠ unlisted ∧ wfFrom (k + 1) m = true := by
  simp [wfFrom, and_assoc]

@[simp] theorem read_cell_same (k : Nat) (b : Byte) (m : Memory) : read ((k, b) :: m) k = b := if_pos rfl

theorem wfFrom_head {lo k : Nat} {b : Byte} {m : Memory} (h : wfFrom lo ((k, b) :: m) = true) :
    wfFrom k ((k, b) :: m) = true :=
  wfFrom_cell_iff.mpr ⟨le_refl k, (wfFrom_cell_iff.mp h).2⟩

/-- Only the empty list is canonical and reads as unlisted everywhere: a listed byte shows. -/
theorem eq_nil_of_read_unlisted {lo : Nat} {m : Memory} (h : wfFrom lo m = true) (hread : ∀ a, read m a = unlisted) :
    m = [] := by
  cases m with
  | nil => rfl
  | cons c m =>
    obtain ⟨k, b⟩ := c
    obtain ⟨-, hb, -⟩ := wfFrom_cell_iff.mp h
    exact absurd (by simpa using hread k) hb

/-- The byte at the first listed index shows, so a memory that reads the same there cannot begin above it. -/
theorem le_of_read_cell_eq {lo lo' k : Nat} {b : Byte} {m m' : Memory} (h : wfFrom lo ((k, b) :: m) = true)
    (h' : wfFrom lo' m' = true) (hread : read ((k, b) :: m) k = read m' k) : lo' ≤ k := by
  obtain ⟨-, hb, -⟩ := wfFrom_cell_iff.mp h
  by_contra hlt
  rw [read_cell_same, read_below h' (not_le.mp hlt)] at hread
  exact hb hread

/-- Tails under the same head read the same: at the head's own index, which the head hides, neither lists anything. -/
theorem read_tail_eq {k : Nat} {b : Byte} {m m' : Memory} (h : wfFrom (k + 1) m = true) (h' : wfFrom (k + 1) m' = true)
    (hread : ∀ a, read ((k, b) :: m) a = read ((k, b) :: m') a) (a : Nat) : read m a = read m' a := by
  by_cases hk : k = a
  · subst hk
    rw [read_below h k.lt_succ_self, read_below h' k.lt_succ_self]
  · simpa [read_cons_cell, hk] using hread a

/-- Canonical memories are extensional. Their first cells stand at the same index, since neither memory can begin above
the other's first cell, and hold the byte read there; the tails are equal by induction. -/
theorem eq_of_read_eq {lo lo' : Nat} {m m' : Memory} (h : wfFrom lo m = true) (h' : wfFrom lo' m' = true)
    (hread : ∀ a, read m a = read m' a) : m = m' := by
  induction m generalizing lo lo' m' with
  | nil => exact (eq_nil_of_read_unlisted h' fun a => (hread a).symm).symm
  | cons c m ih =>
    obtain ⟨k, b⟩ := c
    cases m' with
    | nil => exact eq_nil_of_read_unlisted h hread
    | cons c' m' =>
      obtain ⟨k', b'⟩ := c'
      obtain rfl : k = k' := le_antisymm
        (le_of_read_cell_eq h' (wfFrom_head h) (hread k').symm)
        (le_of_read_cell_eq h (wfFrom_head h') (hread k))
      obtain rfl : b = b' := by simpa using hread k
      obtain ⟨-, -, hm⟩ := wfFrom_cell_iff.mp h
      obtain ⟨-, -, hm'⟩ := wfFrom_cell_iff.mp h'
      rw [ih hm hm' (read_tail_eq hm hm' hread)]

/-- Settles O58: both memories are canonical from index 0, so extensionality applies. -/
theorem canonicalMemoriesAreEqualByReads : Obligations.CanonicalMemoriesAreEqualByReads :=
  fun _ _ h h' hread => eq_of_read_eq h h' hread

end Sys2Proof.Machine.Memory

/-! # The encoding family: the decoder and the encoder undo each other, and a Turn runs what it decodes (O40 to O44, O15,
O17, O18, O30, O37 to O39) -/

namespace Sys2Proof

/-! ## The decoder by its first byte (R50, R51, R54) -/

@[simp] theorem decode_psgw (dd : Byte) (rest : List Byte) : decode (0x50#8 :: dd :: rest) = .ok (.psgw dd, rest) := rfl
@[simp] theorem decode_waitN (lo hi : Byte) (rest : List Byte) :
    decode (0x61#8 :: lo :: hi :: rest) = .ok (.waitN (le16 lo hi), rest) := rfl
@[simp] theorem decode_wait1 (rest : List Byte) : decode (0x62#8 :: rest) = .ok (.wait1, rest) := rfl
@[simp] theorem decode_endData (rest : List Byte) : decode (0x66#8 :: rest) = .ok (.endData, rest) := rfl

theorem isOpcode_eq_false_iff {b : Byte} :
    isOpcode b = false ↔ b ≠ 0x50#8 ∧ b ≠ 0x61#8 ∧ b ≠ 0x62#8 ∧ b ≠ 0x66#8 := by
  simp [isOpcode, and_assoc]

/-- An unknown first byte is ILLEGAL, and no byte is consumed (R52, R56). -/
theorem decode_illegal {b : Byte} (h : isOpcode b = false) (rest : List Byte) :
    decode (b :: rest) = .ok (.illegal b, b :: rest) := by
  obtain ⟨h50, h61, h62, h66⟩ := isOpcode_eq_false_iff.mp h
  simp only [decode, if_neg h50, if_neg h61, if_neg h62, if_neg h66]

/-- Everything the decoder can read, with the bytes it was read from. -/
theorem decode_cases {bs r : List Byte} {i : Instr} (h : decode bs = .ok (i, r)) :
    (∃ dd, i = .psgw dd ∧ bs = 0x50#8 :: dd :: r) ∨
    (∃ lo hi, i = .waitN (le16 lo hi) ∧ bs = 0x61#8 :: lo :: hi :: r) ∨
    (i = .wait1 ∧ bs = 0x62#8 :: r) ∨
    (i = .endData ∧ bs = 0x66#8 :: r) ∨
    (∃ b rest, i = .illegal b ∧ isOpcode b = false ∧ bs = b :: rest ∧ r = b :: rest) := by
  cases bs with
  | nil => cases h
  | cons b rest =>
    simp only [decode] at h
    split_ifs at h with h50 h61 h62 h66
    · subst h50
      split at h <;> cases h
      exact .inl ⟨_, rfl, rfl⟩
    · subst h61
      split at h <;> cases h
      exact .inr (.inl ⟨_, _, rfl, rfl⟩)
    · subst h62
      cases h
      exact .inr (.inr (.inl ⟨rfl, rfl⟩))
    · subst h66
      cases h
      exact .inr (.inr (.inr (.inl ⟨rfl, rfl⟩)))
    · cases h
      exact .inr (.inr (.inr (.inr ⟨b, rest, rfl, isOpcode_eq_false_iff.mpr ⟨h50, h61, h62, h66⟩, rfl, rfl⟩)))

/-! ## `le16` and the two bytes of a WAITN operand (R7, R54) -/

theorem le16_toNat (lo hi : Byte) : (le16 lo hi).toNat = lo.toNat + 256 * hi.toNat := by
  have hlo := lo.isLt
  have hhi := hi.isLt
  rw [le16, BitVec.toNat_ofNat]
  omega

theorem le16_bytes (n : BitVec 16) : le16 (n.setWidth 8) ((n >>> 8).setWidth 8) = n := by
  have hn := n.isLt
  apply BitVec.eq_of_toNat_eq
  rw [le16_toNat]
  simp only [BitVec.toNat_setWidth, BitVec.toNat_ushiftRight, Nat.shiftRight_eq_div_pow]
  omega

theorem le16_lowByte (lo hi : Byte) : (le16 lo hi).setWidth 8 = lo := by
  have hlo := lo.isLt
  apply BitVec.eq_of_toNat_eq
  rw [BitVec.toNat_setWidth, le16_toNat]
  omega

theorem le16_highByte (lo hi : Byte) : (le16 lo hi >>> 8).setWidth 8 = hi := by
  have hlo := lo.isLt
  have hhi := hi.isLt
  apply BitVec.eq_of_toNat_eq
  rw [BitVec.toNat_setWidth, BitVec.toNat_ushiftRight, le16_toNat, Nat.shiftRight_eq_div_pow]
  omega

/-! ## Decoding an encoding, and encoding what was decoded -/

/-- Settles O40: by the row. A WAITN operand comes back from its two bytes, and an ILLEGAL byte, being no opcode, is
left where it is. -/
theorem decodeOfEncodeIsTheInstruction : Obligations.DecodeOfEncodeIsTheInstruction := by
  intro p i rest hwf hstream
  cases i with
  | psgw dd => exact decode_psgw dd rest
  | waitN n =>
    rw [encode, List.cons_append, List.cons_append, List.cons_append, List.nil_append, decode_waitN, le16_bytes]
    rfl
  | wait1 => exact decode_wait1 rest
  | endData => exact decode_endData rest
  | illegal b => exact decode_illegal (by simpa [Instr.wellFormed] using hwf) rest
  | pToneLatch ch lo => cases hstream
  | pToneData hi => cases hstream
  | pVol ch att => cases hstream
  | pNoise mode rate => cases hstream

/-- Settles O41: by what the decoder can read; the operand of a WAITN encodes as the two bytes it was read from. -/
theorem decodedBytesAreTheEncoding : Obligations.DecodedBytesAreTheEncoding := by
  intro p bs r i h
  rcases decode_cases h with ⟨dd, rfl, rfl⟩ | ⟨lo, hi, rfl, rfl⟩ | ⟨rfl, rfl⟩ | ⟨rfl, rfl⟩ |
    ⟨b, rest, rfl, hb, rfl, rfl⟩
  · exact ⟨rfl, rfl, ⟨r, rfl⟩, rfl⟩
  · exact ⟨rfl, rfl, ⟨r, by rw [encode, le16_lowByte, le16_highByte]; rfl⟩, rfl⟩
  · exact ⟨rfl, rfl, ⟨r, rfl⟩, rfl⟩
  · exact ⟨rfl, rfl, ⟨r, rfl⟩, rfl⟩
  · exact ⟨by simp [Instr.wellFormed, hb], rfl, ⟨rest, rfl⟩, rfl⟩

/-- Settles O39: the decoder and the reading of a PSG byte run on the words. -/
theorem specWordsDecode : Obligations.SpecWordsDecode := by
  unfold Obligations.SpecWordsDecode
  decide

/-! ## The bit fields of the PSG bytes (R58, R124) -/

theorem toneLatchByte_fields : ∀ (ch : BitVec 2) (lo : BitVec 4),
    toneLatchByte ch lo &&& 0x90#8 = 0x80#8 ∧ (toneLatchByte ch lo).extractLsb' 5 2 = ch ∧
      (toneLatchByte ch lo).extractLsb' 0 4 = lo := by decide

theorem toneDataByte_fields : ∀ hi : BitVec 6,
    toneDataByte hi &&& 0xC0#8 = 0#8 ∧ (toneDataByte hi).extractLsb' 0 6 = hi := by decide

theorem volByte_fields : ∀ (ch : BitVec 2) (att : BitVec 4),
    volByte ch att &&& 0x90#8 = 0x90#8 ∧ (volByte ch att).extractLsb' 5 2 = ch ∧
      (volByte ch att).extractLsb' 0 4 = att := by decide

theorem noiseByte_fields : ∀ (bit4 : Bool) (mode : BitVec 1) (rate : BitVec 2),
    noiseByte bit4 mode rate &&& 0xF8#8 = noiseByte bit4 0#1 0#2 ∧ (noiseByte bit4 mode rate).extractLsb' 2 1 = mode ∧
      (noiseByte bit4 mode rate).extractLsb' 0 2 = rate := by decide

/-- Settles O42: the byte of each format has the format's fixed bits, and its fields stand where they are read. -/
theorem psgDecodeOfEncodeIsTheRow : Obligations.PsgDecodeOfEncodeIsTheRow := by
  intro p i fmt b hwf hfmt hencode
  cases i with
  | psgw dd => cases hfmt
  | waitN n => cases hfmt
  | wait1 => cases hfmt
  | endData => cases hfmt
  | illegal c => cases hfmt
  | pToneLatch ch lo =>
    cases hfmt
    cases hencode
    obtain ⟨hfixed, hch, hlo⟩ := toneLatchByte_fields ch lo
    have hchannel : ch ≠ 3#2 := by simpa [Instr.wellFormed] using hwf
    rw [decodePsg, hch, hlo, if_pos ⟨hfixed, hchannel⟩]
  | pToneData hi =>
    cases hfmt
    cases hencode
    obtain ⟨hfixed, hhi⟩ := toneDataByte_fields hi
    rw [decodePsg, hhi, if_pos hfixed]
  | pVol ch att =>
    cases hfmt
    cases hencode
    obtain ⟨hfixed, hch, hatt⟩ := volByte_fields ch att
    rw [decodePsg, hch, hatt, if_pos hfixed]
  | pNoise mode rate =>
    cases hfmt
    cases hencode
    obtain ⟨hfixed, hmode, hrate⟩ := noiseByte_fields p.noiseBit4 mode rate
    rw [decodePsg, hmode, hrate, if_pos hfixed]

/-- No encoding is longer than the longest command (R51, R58). -/
theorem length_encode_le (p : Params) (i : Instr) : (encode p i).length ≤ longestInstr := by
  cases i with
  | psgw dd => exact ((Laws.EncodedBytes.psgw dd).1 p).2
  | waitN n => exact ((Laws.EncodedBytes.waitN n).1 p).2
  | wait1 => exact (Laws.EncodedBytes.wait1.1 p).2
  | endData => exact (Laws.EncodedBytes.endData.1 p).2
  | illegal b => exact ((Laws.EncodedBytes.illegal b).1 p).2
  | pToneLatch ch lo => exact ((Laws.EncodedBytes.pToneLatch ch lo).1 p).2
  | pToneData hi => exact ((Laws.EncodedBytes.pToneData hi).1 p).2
  | pVol ch att => exact ((Laws.EncodedBytes.pVol ch att).1 p).2
  | pNoise mode rate => exact ((Laws.EncodedBytes.pNoise mode rate).1 p).2

end Sys2Proof

namespace Sys2Proof.Machine.Memory

/-! ## Reading consecutive bytes, and reading back what was stored (R31) -/

theorem readBytes_add (m : Memory) (a n k : Nat) :
    readBytes m a (n + k) = readBytes m a n ++ readBytes m (a + n) k := by
  induction n generalizing a with
  | zero => simp
  | succ n ih => rw [Nat.add_right_comm, readBytes_succ, ih, readBytes_succ, List.cons_append, Nat.add_right_comm,
      Nat.add_assoc]

theorem read_writeAll_below {m : Memory} (h : wf m = true) {a x : Nat} (hx : x < a) (bs : List Byte) :
    read (writeAll m a bs) x = read m x := by
  induction bs generalizing m a with
  | nil => rfl
  | cons b bs ih => rw [writeAll, ih (wf_write h a b) (by omega), read_write h, if_neg (by omega)]

theorem readBytes_writeAll {m : Memory} (h : wf m = true) (a : Nat) (bs : List Byte) :
    readBytes (writeAll m a bs) a bs.length = bs := by
  induction bs generalizing m a with
  | nil => rfl
  | cons b bs ih =>
    have hm := wf_write h a b
    rw [List.length_cons, readBytes_succ, writeAll, ih hm, read_writeAll_below hm (Nat.lt_succ_self a), read_write h,
      if_pos rfl]

end Sys2Proof.Machine.Memory

namespace Sys2Proof.Machine

/-! ## A Turn runs what it decodes (R74, R77) -/

theorem step_of_decode {s : State} {i : Instr} {r : List Byte} (hphase : s.phase = .decode)
    (h : decode (fetchBytes s) = .ok (i, r)) : step s = exec i s := by
  simp only [step, stepState, hphase, turn, h]

/-- A command that lies below LEN and is no longer than the longest one is fetched whole. -/
theorem fetchBytes_of_readBytes {s : State} {bs : List Byte} (hle : bs.length ≤ longestInstr)
    (hlen : s.wOffset + bs.length ≤ s.len) (hread : s.buf.readBytes s.wOffset bs.length = bs) :
    ∃ rest, fetchBytes s = bs ++ rest := by
  obtain ⟨k, hk⟩ := Nat.exists_eq_add_of_le (le_min hle (Nat.le_sub_of_add_le' hlen))
  exact ⟨s.buf.readBytes (s.wOffset + bs.length) k, by rw [fetchBytes_eq, hk, Memory.readBytes_add, hread]⟩

/-- Settles O15: the fetch begins with the encoding, which decodes to its row whatever follows (O40). -/
theorem stepRunsTheInstructionAtTheOffset : Obligations.StepRunsTheInstructionAtTheOffset := by
  intro s i hphase hwf hstream hlen hread
  obtain ⟨rest, hfetch⟩ := fetchBytes_of_readBytes (length_encode_le s.params i) hlen hread
  have hdecode := decodeOfEncodeIsTheInstruction s.params i rest hwf hstream
  rw [← hfetch] at hdecode
  exact step_of_decode hphase hdecode

/-! ## The placed instruction word (log entry 13) -/

@[simp] theorem intoDecode_phase (s : State) : (intoDecode s).phase = .decode := by
  unfold intoDecode
  split
  · rfl
  · assumption

@[simp] theorem intoDecode_wOffset (s : State) : (intoDecode s).wOffset = fetchOffset s := by
  unfold intoDecode fetchOffset
  split <;> rfl

theorem withFetchWord_phase (s : State) (nbits w : Nat) : (s.withFetchWord nbits w).phase = .decode :=
  intoDecode_phase s

/-- The placed word is what is fetched: LEN reaches past it, and no other byte was stored over it. -/
theorem fetchBytes_withFetchWord {s : State} (h : s.buf.wf = true) (nbits w : Nat) :
    fetchBytes (s.withFetchWord nbits w) = tableBytes nbits w := by
  have hread := Memory.readBytes_writeAll h (fetchOffset s) (tableBytes nbits w)
  have hlen : min longestInstr (max s.len (fetchOffset s + longestInstr) - fetchOffset s) = longestInstr := by omega
  rw [fetchBytes_eq]
  simp only [State.withFetchWord, placeWord, intoDecode_wOffset, hlen]
  exact hread

theorem decodeTableWord_some {nbits w : Nat} {i : Instr} (h : decodeTableWord nbits w = some i) :
    ∃ r, decode (tableBytes nbits w) = .ok (i, r) := by
  unfold decodeTableWord at h
  split at h
  · next j r hdecode =>
    cases h
    exact ⟨r, hdecode⟩
  · cases h

/-- Settles O43: the placed state is in the decode phase, and its Turn fetches the word. -/
theorem placedWordIsWhatTheNextStepRuns : Obligations.PlacedWordIsWhatTheNextStepRuns := by
  intro s nbits w i hwf hword
  obtain ⟨r, hdecode⟩ := decodeTableWord_some hword
  rw [← fetchBytes_withFetchWord hwf] at hdecode
  exact step_of_decode (withFetchWord_phase s nbits w) hdecode

/-! ## PSGW and WAITN (R90, R92, R133) -/

/-- A missing byte is reported at the opcode's index, and no register and nothing of the traces but the result changes
(R133, D4, D6). -/
theorem raiseEndOfStream_effect (s : State) :
    s.SameRegisters (raiseEndOfStream s) ∧ (raiseEndOfStream s).bus = s.bus ∧
      (raiseEndOfStream s).requests = s.requests ∧
      s.Reported (raiseEndOfStream s) .frame (.error (.unexpectedEndOfStream s.wOffset)) :=
  ⟨⟨rfl, rfl, rfl, rfl, rfl, rfl, rfl, rfl⟩, rfl, rfl, rfl, rfl⟩

/-- Settles O17: PSGW by its bound test; in STREAM the two bytes at W_OFFSET are its encoding, so the step runs it. -/
theorem psgwWritesItsOperandToBus : Obligations.PsgwWritesItsOperandToBus := by
  intro s
  have hpresent (dd : Byte) (h : s.wOffset + 1 < s.len) :
      exec (.psgw dd) s = .next { s with bus := s.bus ++ [dd], wOffset := s.wOffset + 2 } := by
    rw [exec_psgw_eq, if_pos h]
    rfl
  refine ⟨hpresent, fun dd h => ?_, fun hphase h hopcode => ?_⟩
  · exact ⟨_, by rw [exec_psgw_eq, if_neg (not_lt.mpr h)], raiseEndOfStream_effect s⟩
  · rw [← hpresent _ h]
    exact stepRunsTheInstructionAtTheOffset s (.psgw (s.buf.read (s.wOffset + 1))) hphase rfl rfl h
      (by simp [encode, Memory.readBytes_succ, hopcode])

theorem withWTicks_of_fits {v : Int} (hlo : -2 ^ 31 ≤ v) (hhi : v < 2 ^ 31) (s : State) (k : State → Result) :
    withWTicks s v k = k { s with wTicks := BitVec.ofInt 32 v } := by
  unfold withWTicks
  rw [narrowTicks_fits hlo hhi]

theorem exec_waitN_missing (n : BitVec 16) {s : State} (h : s.len ≤ s.wOffset + 2) :
    exec (.waitN n) s = .next (raiseEndOfStream s) := by
  have hbytes : bytesPresent s 3 = false := decide_eq_false (by omega)
  simp only [exec, execWaitN, hbytes, Bool.false_eq_true, if_false]

/-- WAITN with its operand present commits the exact sum, where that fits 32 bits (R92, R78). -/
theorem exec_waitN_present {n : BitVec 16} {s : State} (h : s.wOffset + 2 < s.len)
    (hsum : s.wTicks.toInt + framesOf n < 2 ^ 31) :
    ∃ w : Ticks, w.toInt = s.wTicks.toInt + framesOf n ∧
      exec (.waitN n) s = .next (commit { s with wTicks := w, wOffset := s.wOffset + 3 }) := by
  have hbytes : bytesPresent s 3 = true := decide_eq_true h
  have hlow := (ticks_bounds s.wTicks).1
  refine ⟨BitVec.ofInt 32 (s.wTicks.toInt + framesOf n), toInt_ofInt_of_fits (by omega) hsum, ?_⟩
  simp only [exec, execWaitN, hbytes, if_true]
  rw [withWTicks_of_fits (by omega) hsum]

/-- No wait overflows from the W_TICKS of the decode phase (R72, R93). -/
theorem wait_fits_of_nonpos {t : Ticks} (h : t.toInt ≤ 0) (n : BitVec 16) : t.toInt + framesOf n < 2 ^ 31 := by
  have hframes := framesOf_le n
  omega

/-- Settles O18: WAITN by its bound test; in STREAM the three bytes at W_OFFSET are its encoding, so the step runs it,
and with W_TICKS at most 0 the sum fits. -/
theorem waitNAddsWholeFramesAndCommits : Obligations.WaitNAddsWholeFramesAndCommits := by
  refine fun s => ⟨fun n h hsum => ?_, fun n h => ?_, fun hphase h hopcode hticks => ?_⟩
  · obtain ⟨w, hw, hexec⟩ := exec_waitN_present h hsum
    exact ⟨_, hexec, hw, rfl, rfl, ⟨rfl, rfl, rfl, rfl, rfl⟩, rfl, rfl, rfl, rfl⟩
  · exact ⟨_, exec_waitN_missing n h, raiseEndOfStream_effect s⟩
  · have hstep := stepRunsTheInstructionAtTheOffset s
      (.waitN (le16 (s.buf.read (s.wOffset + 1)) (s.buf.read (s.wOffset + 2)))) hphase rfl rfl h
      (by simp [encode, le16_lowByte, le16_highByte, Memory.readBytes_succ, hopcode])
    obtain ⟨w, hw, hexec⟩ := exec_waitN_present h (wait_fits_of_nonpos hticks _)
    rw [framesOf, le16_toNat] at hw
    exact ⟨_, hstep.trans hexec, hw, rfl, rfl, ⟨rfl, rfl, rfl, rfl, rfl⟩, rfl, rfl, rfl, rfl⟩

/-! ## The encoder's rows for legal arguments (R110, R117, R119) -/

theorem frequencyRows_legal {ch : Int} {f : BitVec 64} (arith : FreqArith) (hlo : 0 ≤ ch) (hhi : ch ≤ 2)
    (hf : legalFrequency f = true) : frequencyRows arith ch f = .ok (toneRows ch.toNat (toneRegister arith f)) := by
  simp [frequencyRows, hlo, hhi, hf]

theorem volumeRows_legal {ch vol : Int} (hch : 0 ≤ ch ∧ ch ≤ 3) (hvol : 0 ≤ vol ∧ vol ≤ 15) :
    volumeRows ch vol = .ok [.pVol (BitVec.ofNat 2 ch.toNat) (BitVec.ofNat 4 (15 - vol.toNat))] := by
  simp [volumeRows, hch, hvol]

theorem noiseRows_legal {mode rate : Int} (hmode : 0 ≤ mode ∧ mode ≤ 1) (hrate : 0 ≤ rate ∧ rate ≤ 3) :
    noiseRows mode rate = .ok [.pNoise (BitVec.ofNat 1 mode.toNat) (BitVec.ofNat 2 rate.toNat)] := by
  simp [noiseRows, hmode, hrate]

/-! ## The encoder's requests run their rows (R38, R116, R118, R120) -/

theorem emitRows_cons_of_exec {i : Instr} {s u : State} (h : exec i s = .next u) (is : List Instr) :
    emitRows (i :: is) s = emitRows is u := by
  rw [emitRows, h]

theorem encoderOp_of_emitRows {is : List Instr} {s u : State} (h : emitRows is s = .next u) (op : OpKind) :
    encoderOp op (.ok is) s = .next (report op .ok u) := by
  simp only [encoderOp, h]

/-- Settles O30: each request is the encoder operation of its rows, which runs them in order and reports. -/
theorem encoderRequestsExecuteTheirRows : Obligations.EncoderRequestsExecuteTheirRows := by
  intro s rest
  refine ⟨?_, ?_, ?_⟩
  · rintro ch f reg hreq hlo hhi hf rfl
    have hlatch := exec_psgRow (i := .pToneLatch (BitVec.ofNat 2 ch.toNat)
      (BitVec.ofNat 4 (toneRegister s.params.freqArith f % 16))) rfl { s with requests := rest }
    refine ⟨_, _, hlatch, exec_psgRow rfl _, ?_⟩
    rw [step_of_requesting hreq, perform, setFreqOp, frequencyRows_legal s.params.freqArith hlo hhi hf, toneRows]
    refine encoderOp_of_emitRows ?_ .setFreq
    rw [emitRows_cons_of_exec hlatch, emitRows_cons_of_exec (exec_psgRow rfl _), emitRows]
  · intro ch vol hreq hch hch' hvol hvol'
    refine ⟨_, exec_psgRow rfl _, ?_⟩
    rw [step_of_requesting hreq, perform, setVolOp, volumeRows_legal ⟨hch, hch'⟩ ⟨hvol, hvol'⟩]
    exact encoderOp_of_emitRows (emitRows_cons_of_exec (exec_psgRow rfl _) []) .setVol
  · intro mode rate hreq hmode hmode' hrate hrate'
    refine ⟨_, exec_psgRow rfl _, ?_⟩
    rw [step_of_requesting hreq, perform, setNoiseOp, noiseRows_legal ⟨hmode, hmode'⟩ ⟨hrate, hrate'⟩]
    exact encoderOp_of_emitRows (emitRows_cons_of_exec (exec_psgRow rfl _) []) .setNoise

/-! ## The encoder's bytes as numbers (R59, R117, R119) -/

/-- `enc_volume` of legal arguments is one byte, the sum of its fields. -/
theorem encVolume_legal (p : Params) {ch vol : Int} (hch : 0 ≤ ch ∧ ch ≤ 3) (hvol : 0 ≤ vol ∧ vol ≤ 15) :
    encVolume p ch vol = .ok [BitVec.ofNat 8 (0x90 + 32 * ch.toNat + (15 - vol.toNat))] := by
  have hchannel : ch.toNat % 2 ^ 2 = ch.toNat := Nat.mod_eq_of_lt (by omega)
  have hatt : (15 - vol.toNat) % 2 ^ 4 = 15 - vol.toNat := Nat.mod_eq_of_lt (by omega)
  rw [encVolume, volumeRows_legal hch hvol, rowBytes, List.flatMap_singleton, encode, volByte_eq_ofNat,
    BitVec.toNat_ofNat, BitVec.toNat_ofNat, hchannel, hatt]

/-- `enc_noise` of legal arguments is one byte, the sum of its fields, bit 4 being NOISE_BIT4 (R60). -/
theorem encNoise_legal (p : Params) {mode rate : Int} (hmode : 0 ≤ mode ∧ mode ≤ 1) (hrate : 0 ≤ rate ∧ rate ≤ 3) :
    encNoise p mode rate =
      .ok [BitVec.ofNat 8 (0xE0 + (if p.noiseBit4 then 16 else 0) + 4 * mode.toNat + rate.toNat)] := by
  have hbit : mode.toNat % 2 ^ 1 = mode.toNat := Nat.mod_eq_of_lt (by omega)
  have hshift : rate.toNat % 2 ^ 2 = rate.toNat := Nat.mod_eq_of_lt (by omega)
  rw [encNoise, noiseRows_legal hmode hrate, rowBytes, List.flatMap_singleton, encode, noiseByte_eq_ofNat,
    BitVec.toNat_ofNat, BitVec.toNat_ofNat, hbit, hshift]

/-- Settles O37: as numbers, both bytes are 0xF0 plus four times the mode plus the rate. -/
theorem noiseByteCollidesWithVolumeOfChannel3 : Obligations.NoiseByteCollidesWithVolumeOfChannel3 := by
  intro p mode rate hbit4 hmode hmode' hrate hrate'
  have hsum : 0xE0 + 16 + 4 * mode.toNat + rate.toNat =
      0x90 + 32 * (3 : Int).toNat + (15 - (15 - (4 * mode + rate)).toNat) := by omega
  rw [encNoise_legal p ⟨hmode, hmode'⟩ ⟨hrate, hrate'⟩, encVolume_legal p (by omega) (by omega), hbit4, if_pos rfl, hsum]

/-- Settles O38: volume 0 of channel `ch` is the byte 0x9F + 32 ch. -/
theorem resetSequenceSilencesAllChannels : Obligations.ResetSequenceSilencesAllChannels := by
  refine ⟨rfl, fun p ch hch => ?_⟩
  rw [encVolume_legal p (by omega) (by omega)]
  interval_cases ch <;> rfl

/-! ## The pseudo-instructions (R57) -/

/-- The bytes of a tone write as numbers (R59). -/
theorem toneRows_bytes (p : Params) {ch reg : Nat} (hch : ch ≤ 2) (hreg : reg ≤ 1023) :
    (toneRows ch reg).flatMap (encode p) =
      [BitVec.ofNat 8 (0x80 + 32 * ch + reg % 16), BitVec.ofNat 8 (reg / 16)] := by
  have hchannel : ch % 2 ^ 2 = ch := Nat.mod_eq_of_lt (by omega)
  have hlow : reg % 16 % 2 ^ 4 = reg % 16 := Nat.mod_mod reg 16
  have hhigh : reg / 16 % 2 ^ 6 = reg / 16 := Nat.mod_eq_of_lt (by omega)
  simp only [toneRows, List.flatMap_cons, List.flatMap_nil, encode, toneLatchByte_eq_ofNat, toneDataByte_eq_ofNat,
    BitVec.toNat_ofNat, hchannel, hlow, hhigh, List.cons_append, List.nil_append]

/-- Settles O44: the pseudo-instructions give the same sums of fields as the encoder's rows. -/
theorem pseudoInstructionsExpandToPsgw : Obligations.PseudoInstructionsExpandToPsgw := by
  refine fun p => ⟨fun ch reg hch hreg => ?_, fun ch v hch hv => ?_, fun mode rate hmode hrate => ?_⟩
  · rw [toneRows_bytes p hch hreg, AsmLine.bytes, if_pos ⟨hch, hreg⟩]
    rfl
  · refine ⟨_, encVolume_legal p (by omega) (by omega), ?_⟩
    rw [AsmLine.bytes, if_pos ⟨hch, hv⟩]
    rfl
  · refine ⟨_, encNoise_legal p (by omega) (by omega), ?_⟩
    rw [AsmLine.bytes, if_pos ⟨hmode, hrate⟩]
    rfl

end Sys2Proof.Machine

/-! # The frame sequencer family: how a FRAME starts, what a Turn does, and the pseudocode of R76 (O11, O13, O52, O55,
O56, O10, O14, O16, O23) -/

namespace Sys2Proof.Machine

/-! ## The start of a FRAME (R71 to R73) -/

theorem startFrame_finished_eq {s : State} (h : s.finished = true) : startFrame s = .next (raise .frame .endOfSong s) :=
  if_pos h

/-- The tick test of R72 where the decrement is defined: the exact value TICKS - 1 decides between the early return
and the decode phase. -/
theorem startFrame_unfinished_eq {s : State} (hfin : s.finished = false) (hlow : -2 ^ 31 < s.ticks.toInt) :
    ∃ w : Ticks, w.toInt = s.ticks.toInt - 1 ∧
      startFrame s = .next (if 0 < w.toInt then earlyReturn w s else enterDecode w s) := by
  have hhigh := (ticks_bounds s.ticks).2
  have hw : (BitVec.ofInt 32 (s.ticks.toInt - 1)).toInt = s.ticks.toInt - 1 :=
    toInt_ofInt_of_fits (by omega) (by omega)
  refine ⟨_, hw, ?_⟩
  unfold startFrame
  rw [if_neg (by simp [hfin]), narrowTicks_fits (by omega) (by omega)]
  simp only [stillWaiting, decide_eq_true_eq]
  split <;> rfl

theorem startFrame_waits {s : State} (hfin : s.finished = false) (hticks : 0 < s.ticks.toInt - 1) :
    ∃ w : Ticks, w.toInt = s.ticks.toInt - 1 ∧ startFrame s = .next (earlyReturn w s) := by
  obtain ⟨w, hw, hstart⟩ := startFrame_unfinished_eq hfin (by omega)
  rw [if_pos (by omega)] at hstart
  exact ⟨w, hw, hstart⟩

theorem startFrame_decodes {s : State} (hfin : s.finished = false) (hlow : -2 ^ 31 < s.ticks.toInt)
    (hticks : s.ticks.toInt - 1 ≤ 0) :
    ∃ w : Ticks, w.toInt = s.ticks.toInt - 1 ∧ startFrame s = .next (enterDecode w s) := by
  obtain ⟨w, hw, hstart⟩ := startFrame_unfinished_eq hfin hlow
  rw [if_neg (by omega)] at hstart
  exact ⟨w, hw, hstart⟩

/-- Settles O10: the finished test comes first and raises on the state as it is. -/
theorem frameOnFinishedSongRaisesEndOfSong : Obligations.FrameOnFinishedSongRaisesEndOfSong := by
  intro s rest h hfin
  exact ⟨_, (step_of_requesting h).trans (startFrame_finished_eq hfin), ⟨rfl, rfl, rfl, rfl, rfl, rfl, rfl, rfl⟩, rfl,
    rfl, rfl, rfl⟩

/-- Settles O11: the early return writes TICKS alone, the entry to the decode phase only the working copies. -/
theorem frameDecrementsThenWaitsOrDecodes : Obligations.FrameDecrementsThenWaitsOrDecodes := by
  intro s rest h hfin hlow
  rw [step_of_requesting h]
  refine ⟨fun hticks => ?_, fun hticks => ?_⟩
  · obtain ⟨w, hw, hstart⟩ := startFrame_waits (s := { s with requests := rest }) hfin hticks
    exact ⟨_, hstart, hw, rfl, rfl, ⟨rfl, rfl, rfl, rfl, rfl⟩, rfl, rfl, rfl, rfl⟩
  · obtain ⟨w, hw, hstart⟩ := startFrame_decodes (s := { s with requests := rest }) hfin hlow hticks
    exact ⟨_, hstart, rfl, hw, rfl, rfl, ⟨rfl, rfl, rfl, rfl, rfl, rfl, rfl, rfl⟩, rfl, rfl, rfl⟩

/-! ## What stays the same over two stretches of a run -/

theorem State.SameStream.trans {s u t : State} (h : s.SameStream u) (h' : u.SameStream t) : s.SameStream t := by
  obtain ⟨hbuf, hlen, hvalid, hloop, hparams⟩ := h
  rwa [State.SameStream, hbuf, hlen, hvalid, hloop, hparams] at h'

theorem State.SameRegisters.trans {s u t : State} (h : s.SameRegisters u) (h' : u.SameRegisters t) :
    s.SameRegisters t := by
  obtain ⟨hoffset, hticks, hfin, hbuf, hlen, hvalid, hloop, hparams⟩ := h
  rwa [State.SameRegisters, hoffset, hticks, hfin, hbuf, hlen, hvalid, hloop, hparams] at h'

/-! ## Runs (R77) -/

theorem runSteps_succ_of_step {s u : State} (h : step s = .next u) (n : Nat) : runSteps (n + 1) s = runSteps n u :=
  (run_succ n s).trans (by rw [h])

theorem runSteps_one (s : State) : runSteps 1 s = step s := by
  refine (run_succ 0 s).trans ?_
  cases step s <;> rfl

/-- Settles O13: by induction on the number of FRAMEs; the first is an early return by O11, and TICKS is still above the
number of those that follow. -/
theorem waitingFramesOnlyCountDown : Obligations.WaitingFramesOnlyCountDown := by
  intro n
  induction n with
  | zero =>
    intro s rest hidle hreq hfin hticks
    exact ⟨s, rfl, by simp, rfl, hfin, ⟨rfl, rfl, rfl, rfl, rfl⟩, rfl, hidle, by simpa using hreq, by simp⟩
  | succ n ih =>
    intro s rest hidle hreq hfin hticks
    have hfirst : s.Requesting .frame (List.replicate n .frame ++ rest) := ⟨hidle, hreq⟩
    obtain ⟨u, hstep, hw, hoffset, hfinished, hsame, hbus, hrequests, huidle, hresults⟩ :=
      (frameDecrementsThenWaitsOrDecodes s _ hfirst hfin (by omega)).1 (by omega)
    obtain ⟨t, hrun, htw, htoffset, htfin, htsame, htbus, htidle, htrequests, htresults⟩ :=
      ih u rest huidle hrequests (hfinished.trans hfin) (by omega)
    refine ⟨t, (runSteps_succ_of_step hstep n).trans hrun, by omega, htoffset.trans hoffset, htfin,
      hsame.trans htsame, htbus.trans hbus, htidle, htrequests, ?_⟩
    rw [htresults, hresults, hbus, List.append_assoc, List.singleton_append, List.replicate_succ]

/-! ## A Turn whose bytes are missing (R74, R133) -/

theorem step_eq_turn {s : State} (h : s.phase = .decode) : step s = turn s := by
  simp only [step, stepState, h]

/-- Settles O16: a Turn by its opcode byte; PSGW and WAITN make the test of their operand themselves. -/
theorem missingByteRaisesEndOfStream : Obligations.MissingByteRaisesEndOfStream := by
  intro s hphase hmissing
  have hturn : turn s = .next (raiseEndOfStream s) := by
    rw [turn_eq]
    rcases hmissing with hend | ⟨hlt, hopcode, hend⟩ | ⟨hlt, hopcode, hend⟩
    · rw [if_pos hend]
    · rw [if_neg (not_le.mpr hlt), if_pos hopcode]
      exact (exec_psgw_eq _ s).trans (if_neg (not_lt.mpr hend))
    · rw [if_neg (not_le.mpr hlt), if_neg (by simp [hopcode]), if_pos hopcode]
      exact exec_waitN_missing _ hend
  exact ⟨_, (step_eq_turn hphase).trans hturn, raiseEndOfStream_effect s⟩

/-- Settles O14: the FRAME enters the decode phase (O11) at index 0, where the opcode byte is missing (O16). -/
theorem frameOnEmptyStreamRaisesEndOfStream : Obligations.FrameOnEmptyStreamRaisesEndOfStream := by
  intro s rest h hfin hlen hoffset hlow hhigh
  obtain ⟨u, hstart, hphase, -, hwOffset, -, hsame, hbus, hresults, hrequests⟩ :=
    (frameDecrementsThenWaitsOrDecodes s rest h hfin hlow).2 (by omega)
  have ⟨_, _, _, _, hulen, _⟩ := hsame
  obtain ⟨t, hturn, htsame, htbus, htrequests, hidle, htresults⟩ :=
    missingByteRaisesEndOfStream u hphase (.inl (by omega))
  refine ⟨t, ?_, hsame.trans htsame, htbus.trans hbus, htrequests.trans hrequests, hidle, ?_⟩
  · rw [runSteps_succ_of_step hstart, runSteps_one, hturn]
  · rw [htresults, hresults, hwOffset, hoffset]

/-! ## Commands in the decode phase (R75, R83) -/

/-- WAIT1 commits the exact sum, where that fits 32 bits (R94, R78). -/
theorem exec_wait1_eq {s : State} (hsum : s.wTicks.toInt + 1 < 2 ^ 31) :
    exec .wait1 s = .next (commit
      { s with wTicks := BitVec.ofInt 32 (s.wTicks.toInt + 1), wOffset := s.wOffset + 1 }) := by
  have hlow := (ticks_bounds s.wTicks).1
  rw [exec, execWait1, withWTicks_of_fits (by omega) hsum]

/-- Settles O23: every row by its own rule; W_TICKS at most 0 keeps the sum of a wait within 32 bits. -/
theorem commandsContinueOrStopTheLoop : Obligations.CommandsContinueOrStopTheLoop := by
  intro s hphase hticks
  refine ⟨fun dd hpresent => ?_, fun n hpresent => ?_, ?_, fun hloop => ?_, fun hloop => ?_, fun b => ?_⟩
  · exact ⟨_, (exec_psgw_eq dd s).trans (if_pos hpresent), hphase, rfl⟩
  · obtain ⟨w, -, hexec⟩ := exec_waitN_present hpresent (wait_fits_of_nonpos hticks n)
    exact ⟨_, hexec, rfl, rfl⟩
  · exact ⟨_, exec_wait1_eq (by omega), rfl, rfl⟩
  · exact ⟨_, if_pos hloop, hphase, rfl⟩
  · exact ⟨_, if_neg (by simp [hloop]), rfl, rfl⟩
  · exact ⟨_, rfl, rfl, _, rfl⟩

/-- Settles O52: FINISHED is 0 before, since R17(c) excludes a finished song with a loop, and only an END without a loop
sets it (O51). -/
theorem loopingSongNeverFinishes : Obligations.LoopingSongNeverFinishes := by
  intro s t hinv hloop hstep
  have ⟨_, _, ⟨_, _, hfinished⟩, _⟩ := hinv
  have hbefore : s.finished = false := by
    cases hset : s.finished with
    | false => rfl
    | true =>
      obtain ⟨-, -, hnoloop⟩ := hfinished hset
      cases hloop.symm.trans hnoloop
  cases hafter : t.finished with
  | false => rfl
  | true =>
    obtain ⟨-, -, -, hnoloop⟩ := (finishedChangesOnlyByEndAndReset s t hinv hstep).1 hbefore hafter
    cases hloop.symm.trans hnoloop

/-! ## The pseudocode of R76 and the small-step machine (R77, D1) -/

/-- The state of the small-step machine in which a FRAME requested at `s` has the locals `v` of R76. -/
def State.withLocals (s : State) (v : Locals) : State :=
  { s with phase := .decode, wOffset := v.i, wTicks := v.t, wFin := v.fin, bus := v.bus }

/-- What FRAME gives from inside the loop of R76. -/
def loopResult (s : State) (fuel : Nat) (v : Locals) : Option Result := (decodeLoop s fuel v).map (endFrame s)

/-- One step of a FRAME requested at `s` answers `r` where `big` is what the pseudocode gives from there: both go on
with the same locals, or both end in `r`. -/
inductive State.Agrees (s : State) (r : Result) (big : Nat → Option Result) : Prop
  | continues (v : Locals) (hstep : r = .next (s.withLocals v)) (hbig : ∀ fuel, big fuel = loopResult s fuel v)
  | ends (hidle : ∀ t, r = .next t → t.phase = .idle) (hbig : ∀ fuel, big fuel = some r)

theorem endFrame_phase {s t : State} {e : LoopEnd} (h : endFrame s e = .next t) : t.phase = .idle := by
  cases e with
  | exits v =>
    cases h
    rfl
  | raises k v =>
    cases h
    rfl
  | overflows => cases h

/-- The loop of R76 ends in its first turn, as the Turn does. -/
theorem State.Agrees.of_end {s : State} {r : Result} {v : Locals} (e : LoopEnd) (hstep : r = endFrame s e)
    (hloop : ∀ fuel, decodeLoop s (fuel + 1) v = some e) : s.Agrees r fun fuel => loopResult s (fuel + 1) v := by
  subst hstep
  exact .ends (fun _ => endFrame_phase) fun fuel => by simp only [loopResult, hloop, Option.map_some]

/-- The loop of R76 goes on as the Turn does. -/
theorem State.Agrees.of_next {s : State} {r : Result} {v : Locals} (v' : Locals) (hstep : r = .next (s.withLocals v'))
    (hloop : ∀ fuel, decodeLoop s (fuel + 1) v = decodeLoop s fuel v') :
    s.Agrees r fun fuel => loopResult s (fuel + 1) v :=
  .continues v' hstep fun fuel => by simp only [loopResult, hloop]

theorem framesOf_le16 (lo hi : Byte) : framesOf (le16 lo hi) = (lo.toNat + 256 * hi.toNat) / 735 := by
  rw [framesOf, le16_toNat]
  rfl

/-- A wait commits, or overflows, as `exitAfterWait` says. -/
theorem wait_withLocals (s : State) (v : Locals) (n k : Nat) :
    withWTicks (s.withLocals v) (v.t.toInt + n) (fun u => .next (commit { u with wOffset := u.wOffset + k })) =
      endFrame s (exitAfterWait v n k) := by
  unfold withWTicks exitAfterWait
  cases narrowTicks (v.t.toInt + n) with
  | none => rfl
  | some t => rfl

/-! One turn of the loop of R76 for each command, whose opcode byte stands below LEN. -/

theorem psgw_agrees {s : State} {v : Locals} (hlen : ¬s.len ≤ v.i) (hopcode : s.buf.read v.i = 0x50#8) :
    s.Agrees (execPsgw (s.buf.read (v.i + 1)) (s.withLocals v)) fun fuel => loopResult s (fuel + 1) v := by
  by_cases hmissing : s.len ≤ v.i + 1
  · refine .of_end (.raises (.unexpectedEndOfStream v.i) v) ?_ fun _ => ?_
    · exact (exec_psgw_eq _ _).trans (if_neg (not_lt.mpr hmissing))
    · simp [decodeLoop, hlen, hopcode, hmissing]
  · refine .of_next { v with bus := v.bus ++ [s.buf.read (v.i + 1)], i := v.i + 2 } ?_ fun _ => ?_
    · exact (exec_psgw_eq _ _).trans (if_pos (not_le.mp hmissing))
    · simp [decodeLoop, hlen, hopcode, hmissing]

theorem waitN_agrees {s : State} {v : Locals} (hlen : ¬s.len ≤ v.i) (hopcode : s.buf.read v.i = 0x61#8) :
    s.Agrees (execWaitN (le16 (s.buf.read (v.i + 1)) (s.buf.read (v.i + 2))) (s.withLocals v))
      fun fuel => loopResult s (fuel + 1) v := by
  by_cases hmissing : s.len ≤ v.i + 2
  · refine .of_end (.raises (.unexpectedEndOfStream v.i) v) ?_ fun _ => ?_
    · exact exec_waitN_missing (s := s.withLocals v) _ hmissing
    · simp [decodeLoop, hlen, hopcode, hmissing]
  · refine .of_end (exitAfterWait v
      (((s.buf.read (v.i + 1)).toNat + 256 * (s.buf.read (v.i + 2)).toNat) / 735) 3) ?_ fun _ => ?_
    · have hbytes : bytesPresent (s.withLocals v) 3 = true := decide_eq_true (not_le.mp hmissing)
      rw [execWaitN, if_pos hbytes, framesOf_le16]
      exact wait_withLocals s v _ 3
    · simp [decodeLoop, hlen, hopcode, hmissing]

theorem wait1_agrees {s : State} {v : Locals} (hlen : ¬s.len ≤ v.i) (hopcode : s.buf.read v.i = 0x62#8) :
    s.Agrees (execWait1 (s.withLocals v)) fun fuel => loopResult s (fuel + 1) v :=
  .of_end (exitAfterWait v 1 1) (wait_withLocals s v 1 1) fun _ => by simp [decodeLoop, hlen, hopcode]

theorem endData_agrees {s : State} {v : Locals} (hlen : ¬s.len ≤ v.i) (hopcode : s.buf.read v.i = 0x66#8) :
    s.Agrees (execEndData (s.withLocals v)) fun fuel => loopResult s (fuel + 1) v := by
  by_cases hloop : s.loopValid = true
  · exact .of_next { v with i := s.loopOffset } (if_pos hloop) fun _ => by simp [decodeLoop, hlen, hopcode, hloop]
  · exact .of_end (.exits { v with fin := true }) (if_neg hloop) fun _ => by simp [decodeLoop, hlen, hopcode, hloop]

theorem illegal_agrees {s : State} {v : Locals} (hlen : ¬s.len ≤ v.i) (h50 : s.buf.read v.i ≠ 0x50#8)
    (h61 : s.buf.read v.i ≠ 0x61#8) (h62 : s.buf.read v.i ≠ 0x62#8) (h66 : s.buf.read v.i ≠ 0x66#8) :
    s.Agrees (execIllegal (s.buf.read v.i) (s.withLocals v)) fun fuel => loopResult s (fuel + 1) v :=
  .of_end (.raises (.unknownOpcode v.i (s.buf.read v.i)) v) rfl fun _ => by
    simp [decodeLoop, hlen, h50, h61, h62, h66]

/-- A Turn and a turn of the loop of R76 agree: no opcode byte is there, or its command decides. -/
theorem turn_agrees (s : State) (v : Locals) :
    s.Agrees (step (s.withLocals v)) fun fuel => loopResult s (fuel + 1) v := by
  rw [step_eq_turn rfl, turn_eq]
  split_ifs with hlen h50 h61 h62 h66
  · exact .of_end (.raises (.unexpectedEndOfStream v.i) v) rfl fun _ => if_pos hlen
  · exact psgw_agrees hlen h50
  · exact waitN_agrees hlen h61
  · exact wait1_agrees hlen h62
  · exact endData_agrees hlen h66
  · exact illegal_agrees hlen h50 h61 h62 h66

/-- The start of a FRAME and the lines of R76 before its loop agree. -/
theorem startFrame_agrees (s : State) : s.Agrees (startFrame s) fun fuel => frameBigStep fuel s := by
  by_cases hfin : s.finished = true
  · rw [startFrame_finished_eq hfin]
    exact .ends (fun _ h => by cases h; rfl) fun _ => if_pos hfin
  unfold startFrame frameBigStep
  simp only [if_neg hfin]
  cases narrowTicks (s.ticks.toInt - 1) with
  | none => exact .ends nofun fun _ => rfl
  | some t =>
    by_cases hwait : 0 < t.toInt
    · simp only [stillWaiting, hwait, decide_true, if_true]
      exact .ends (fun _ h => by cases h; rfl) fun _ => rfl
    · simp only [stillWaiting, hwait, decide_false, Bool.false_eq_true, if_false]
      refine .continues { i := s.offset, t := t, fin := false, bus := s.bus } rfl fun fuel => ?_
      rw [loopResult]
      cases decodeLoop s fuel { i := s.offset, t := t, fin := false, bus := s.bus } with
      | none => rfl
      | some e => rfl

theorem step_agrees {s : State} {rest : List HostOp} (h : s.Requesting .frame rest) :
    { s with requests := rest : State }.Agrees (step s) fun fuel => frameBigStep fuel { s with requests := rest } := by
  rw [step_of_requesting h]
  exact startFrame_agrees { s with requests := rest }

/-! A run of a FRAME by its first step. -/

theorem FrameRun.of_step {s : State} {o : Result} (h : step s = o) : FrameRun 1 s o :=
  ⟨(runSteps_one s).trans h, by omega⟩

theorem FrameRun.cons {n : Nat} {s u : State} {o : Result} (hstep : step s = .next u) (hphase : u.phase = .decode)
    (h : FrameRun n u o) : FrameRun (n + 1) s o := by
  obtain ⟨hrun, hbetween⟩ := h
  refine ⟨(runSteps_succ_of_step hstep n).trans hrun, fun m hm hmn => ?_⟩
  obtain ⟨k, rfl⟩ := Nat.exists_eq_add_one_of_ne_zero hm.ne'
  rw [runSteps_succ_of_step hstep]
  rcases Nat.eq_zero_or_pos k with rfl | hk
  · exact ⟨u, rfl, hphase⟩
  · exact hbetween k hk (by omega)

/-- The first step is the last, or leaves the FRAME decoding. -/
theorem FrameRun.succ_cases {n : Nat} {s : State} {o : Result} (h : FrameRun (n + 1) s o) :
    step s = o ∨ ∃ u, step s = .next u ∧ u.phase = .decode ∧ FrameRun n u o := by
  obtain ⟨hrun, hbetween⟩ := h
  rcases Nat.eq_zero_or_pos n with rfl | hn
  · exact .inl ((runSteps_one s).symm.trans hrun)
  · obtain ⟨u, hu, hphase⟩ := hbetween 1 Nat.one_pos (by omega)
    rw [runSteps_one] at hu
    rw [runSteps_succ_of_step hu] at hrun
    refine .inr ⟨u, hu, hphase, hrun, fun m hm hmn => ?_⟩
    rw [← runSteps_succ_of_step hu]
    exact hbetween (m + 1) (by omega) (by omega)

/-- From a step that agrees with the pseudocode, where the pseudocode ends, so does the machine, if it does from inside
the loop. -/
theorem State.Agrees.frameRun {s u : State} {big : Nat → Option Result} {fuel : Nat} {o : Result}
    (hagrees : s.Agrees (step u) big) (h : big fuel = some o)
    (hloop : ∀ v, loopResult s fuel v = some o → ∃ n, 0 < n ∧ n ≤ fuel ∧ FrameRun n (s.withLocals v) o) :
    ∃ n, 0 < n ∧ n ≤ fuel + 1 ∧ FrameRun n u o := by
  cases hagrees with
  | continues v hstep hbig =>
    obtain ⟨n, -, hn, hrun⟩ := hloop v ((hbig fuel).symm.trans h)
    exact ⟨n + 1, Nat.succ_pos n, Nat.succ_le_succ hn, .cons hstep rfl hrun⟩
  | ends _ hbig =>
    have ho : step u = o := Option.some.inj ((hbig fuel).symm.trans h)
    exact ⟨1, Nat.one_pos, Nat.le_add_left 1 fuel, .of_step ho⟩

/-- From a step that agrees with the pseudocode, where the machine ends in an idle state, so does the pseudocode, if it
does from inside the loop. -/
theorem State.Agrees.bigStep {s u t : State} {big : Nat → Option Result} {n fuel : Nat}
    (hagrees : s.Agrees (step u) big) (hidle : t.phase = .idle) (h : FrameRun (n + 1) u (.next t))
    (hloop : ∀ v, FrameRun n (s.withLocals v) (.next t) → loopResult s fuel v = some (.next t)) :
    big fuel = some (.next t) := by
  rcases h.succ_cases with hlast | ⟨w, hstep, hphase, hrest⟩
  · rw [hlast] at hagrees
    cases hagrees with
    | continues v hnext hbig =>
      cases hnext
      cases hidle
    | ends hend hbig => exact hbig fuel
  · rw [hstep] at hagrees
    cases hagrees with
    | continues v hnext hbig =>
      cases hnext
      exact (hbig fuel).trans (hloop v hrest)
    | ends hend hbig => cases hphase.symm.trans (hend w rfl)

theorem frameRun_of_loopResult {s : State} {fuel : Nat} {v : Locals} {o : Result} (h : loopResult s fuel v = some o) :
    ∃ n, 0 < n ∧ n ≤ fuel ∧ FrameRun n (s.withLocals v) o := by
  induction fuel generalizing v with
  | zero => cases h
  | succ fuel ih => exact (turn_agrees s v).frameRun h fun _ => ih

/-- Every fuel that gives the loop as many turns as the machine takes Turns is enough. -/
theorem loopResult_of_frameRun {s t : State} {n fuel : Nat} {v : Locals} (hfuel : n ≤ fuel) (hidle : t.phase = .idle)
    (h : FrameRun n (s.withLocals v) (.next t)) : loopResult s fuel v = some (.next t) := by
  induction n generalizing v fuel with
  | zero =>
    obtain ⟨hrun, -⟩ := h
    cases hrun
    cases hidle
  | succ n ih =>
    obtain ⟨fuel, rfl⟩ := Nat.exists_eq_add_one_of_ne_zero (Nat.ne_zero_of_lt hfuel)
    exact (turn_agrees s v).bigStep hidle h fun _ => ih (Nat.le_of_succ_le_succ hfuel)

/-- Settles O55: the start of the FRAME agrees with the lines of R76 before the loop, and every Turn with a turn of it,
so that the machine needs one step more than the loop has turns. -/
theorem smallStepsReachThePseudocodeResult : Obligations.SmallStepsReachThePseudocodeResult := by
  intro fuel s rest o hreq h
  exact (step_agrees hreq).frameRun h fun _ => frameRun_of_loopResult

/-- Settles O56: the same agreement read from the run; of its `n` steps the first is no turn of the loop, so that fuel
`n` is enough. -/
theorem pseudocodeReachesTheSmallStepResult : Obligations.PseudocodeReachesTheSmallStepResult := by
  intro n s t rest hreq hn hrun hidle
  obtain ⟨n, rfl⟩ := Nat.exists_eq_add_one_of_ne_zero hn.ne'
  exact (step_agrees hreq).bigStep hidle hrun fun _ => loopResult_of_frameRun (Nat.le_succ n) hidle

end Sys2Proof.Machine

/-! # The VGM commands family: WAIT1, END and unknown opcodes, at exec and met in STREAM (O57, O19, O20, O21) -/

namespace Sys2Proof.Machine

/-! ## Commands of one byte (R51, R74) -/

/-- The step runs a one-byte command whose byte stands at W_OFFSET, below LEN. -/
theorem step_of_opcode {s : State} {i : Instr} (hphase : s.phase = .decode) (hlen : s.wOffset < s.len)
    (hwf : i.wellFormed = true) (hstream : i.inStream = true)
    (hencode : encode s.params i = [s.buf.read s.wOffset]) : step s = exec i s :=
  stepRunsTheInstructionAtTheOffset s i hphase hwf hstream (by rw [hencode]; exact hlen) (by rw [hencode]; rfl)

theorem step_of_wait1 {s : State} (hphase : s.phase = .decode) (hlen : s.wOffset < s.len)
    (hopcode : s.buf.read s.wOffset = 0x62#8) : step s = exec .wait1 s :=
  step_of_opcode hphase hlen rfl rfl (by rw [hopcode, encode])

theorem step_of_endData {s : State} (hphase : s.phase = .decode) (hlen : s.wOffset < s.len)
    (hopcode : s.buf.read s.wOffset = 0x66#8) : step s = exec .endData s :=
  step_of_opcode hphase hlen rfl rfl (by rw [hopcode, encode])

theorem step_of_illegal {s : State} (hphase : s.phase = .decode) (hlen : s.wOffset < s.len)
    (hopcode : isOpcode (s.buf.read s.wOffset) = false) : step s = exec (.illegal (s.buf.read s.wOffset)) s :=
  step_of_opcode hphase hlen (by rw [Instr.wellFormed, hopcode]; rfl) rfl rfl

/-! ## What a commit and an error leave unchanged (R78, R140) -/

/-- A commit ends the FRAME with success and writes the three playback registers only. -/
theorem commit_effect (s : State) :
    s.SameStream (commit s) ∧ (commit s).bus = s.bus ∧ (commit s).requests = s.requests ∧
      s.Reported (commit s) .frame .ok :=
  ⟨⟨rfl, rfl, rfl, rfl, rfl⟩, rfl, rfl, rfl, rfl⟩

theorem raise_effect (op : OpKind) (e : ErrorKind) (s : State) :
    s.SameRegisters (raise op e s) ∧ (raise op e s).bus = s.bus ∧ (raise op e s).requests = s.requests ∧
      s.Reported (raise op e s) op (.error e) :=
  ⟨⟨rfl, rfl, rfl, rfl, rfl, rfl, rfl, rfl⟩, rfl, rfl, rfl, rfl⟩

/-! ## END (R96) -/

theorem exec_endData_loops {s : State} (hloop : s.loopValid = true) :
    exec .endData s = .next { s with wOffset := s.loopOffset } :=
  if_pos hloop

theorem exec_endData_finishes {s : State} (hloop : s.loopValid = false) :
    exec .endData s = .next (commit (setFin s)) :=
  if_neg (by simp [hloop])

/-- A state the step answers unchanged is answered by every run from it. -/
theorem runSteps_of_fixed {s : State} (h : step s = .next s) (n : Nat) : runSteps n s = .next s := by
  induction n with
  | zero => rfl
  | succ n ih => exact (runSteps_succ_of_step h n).trans ih

theorem State.with_wOffset_eq_self {s : State} {k : Nat} (h : k = s.wOffset) : { s with wOffset := k } = s := by
  subst h
  rfl

/-- Settles O57: the jump of this END leads back to it, so that the state is a fixed point of the step. -/
theorem loopOnTheEndItselfNeverEnds : Obligations.LoopOnTheEndItselfNeverEnds := by
  intro s hphase hlen hopcode hvalid hloop
  have hfixed : step s = .next s := by
    rw [step_of_endData hphase hlen hopcode, exec_endData_loops hvalid, State.with_wOffset_eq_self hloop]
  exact runSteps_of_fixed hfixed

/-- Settles O20: END by LOOP_VALID, and the step runs it where its byte is met. -/
theorem endLoopsOrFinishes : Obligations.EndLoopsOrFinishes := by
  refine fun s => ⟨exec_endData_loops, fun hloop => ?_, fun hphase hlen hopcode hloop => ?_,
    fun hphase hlen hopcode hloop => ?_⟩
  · exact ⟨_, exec_endData_finishes hloop, rfl, rfl, rfl, commit_effect (setFin s)⟩
  · exact (step_of_endData hphase hlen hopcode).trans (exec_endData_loops hloop)
  · exact ⟨_, (step_of_endData hphase hlen hopcode).trans (exec_endData_finishes hloop), rfl, rfl, rfl,
      commit_effect (setFin s)⟩

/-! ## WAIT1 (R94) -/

/-- WAIT1 commits W_OFFSET + 1 and the exact sum, where that fits 32 bits. -/
theorem exec_wait1_commits {s : State} (hsum : s.wTicks.toInt + 1 < 2 ^ 31) :
    ∃ w : Ticks, w.toInt = s.wTicks.toInt + 1 ∧
      exec .wait1 s = .next (commit { s with wTicks := w, wOffset := s.wOffset + 1 }) := by
  have hlow := (ticks_bounds s.wTicks).1
  exact ⟨_, toInt_ofInt_of_fits (by omega) hsum, exec_wait1_eq hsum⟩

/-- Settles O19: in STREAM the step runs WAIT1, and with W_TICKS at most 0 the sum fits. -/
theorem waitOneAddsOneFrameAndCommits : Obligations.WaitOneAddsOneFrameAndCommits := by
  refine fun s => ⟨fun hsum => ?_, fun hphase hlen hopcode hticks => ?_⟩
  · obtain ⟨w, hw, hexec⟩ := exec_wait1_commits hsum
    exact ⟨_, hexec, hw, rfl, rfl, commit_effect { s with wTicks := w, wOffset := s.wOffset + 1 }⟩
  · obtain ⟨w, hw, hexec⟩ := exec_wait1_commits (s := s) (by omega)
    exact ⟨_, (step_of_wait1 hphase hlen hopcode).trans hexec, hw, rfl, rfl,
      commit_effect { s with wTicks := w, wOffset := s.wOffset + 1 }⟩

/-! ## Unknown opcodes (R98) -/

/-- Settles O21: ILLEGAL raises on the state as it is, and the step runs it where a byte that is no opcode is met. -/
theorem unknownOpcodeIsReportedAndChangesNothing : Obligations.UnknownOpcodeIsReportedAndChangesNothing := by
  intro s b
  refine ⟨⟨_, rfl, raise_effect .frame _ s⟩, ?_⟩
  rintro hphase hlen rfl h50 h61 h62 h66
  have hunknown := isOpcode_eq_false_iff.mpr ⟨h50, h61, h62, h66⟩
  exact ⟨_, step_of_illegal hphase hlen hunknown, raise_effect .frame _ s⟩

end Sys2Proof.Machine

/-! # The encoder family: legal frequencies, the bytes and requests of the encoder, and the binary64 arithmetic of the
tone register (O33 to O36, O59, O60, O26 to O29, O31, O32) -/

namespace Sys2Proof.Machine

/-! ## Legal frequencies and the fields of their patterns (R110, D16) -/

/-- Settles O27: the three fields are quotients and remainders of the pattern's number. -/
theorem legalFrequenciesAreFiniteAndPositive : Obligations.LegalFrequenciesAreFiniteAndPositive := by
  intro f
  have hf := f.isLt
  simp only [legalFrequency, signOf, BitVec.msb_eq_decide, exponentField_eq, fractionField_eq, Bool.and_eq_true,
    Bool.not_eq_true', decide_eq_false_iff_not, bne_iff_ne, Bool.and_eq_false_iff, beq_eq_false_iff_ne]
  omega

/-- A legal pattern has sign 0, so its exponent field is all that stands above the fraction. -/
theorem exponentField_legal {f : BitVec 64} (h : legalFrequency f = true) : exponentField f = f.toNat / 2 ^ 52 := by
  have hfinite := ((legalFrequenciesAreFiniteAndPositive f).mp h).2
  rw [exponentField_eq]
  omega

theorem pattern_subnormal {f : BitVec 64} (h : legalFrequency f = true) (hfield : f.toNat / 2 ^ 52 = 0) :
    significandOf f = f.toNat ∧ exponentOf f = -1074 := by
  have hexp : exponentField f = 0 := (exponentField_legal h).trans hfield
  rw [significandOf, exponentOf, if_pos hexp, if_pos hexp, fractionField_eq]
  exact ⟨by omega, rfl⟩

theorem pattern_normal {f : BitVec 64} (h : legalFrequency f = true) (hfield : f.toNat / 2 ^ 52 ≠ 0) :
    significandOf f = 2 ^ 52 + f.toNat % 2 ^ 52 ∧ exponentOf f = ((f.toNat / 2 ^ 52 : Nat) : Int) - 1075 := by
  have hexp : exponentField f ≠ 0 := fun h0 => hfield ((exponentField_legal h).symm.trans h0)
  rw [significandOf, exponentOf, if_neg hexp, if_neg hexp, fractionField_eq, exponentField_legal h]
  exact ⟨rfl, rfl⟩

/-! ## The clamp of the tone register (R112) -/

theorem toneRegister_of_floor {a : FreqArith} {f : BitVec 64} {q : Nat} (h : floorQuotient a f = some q) :
    toneRegister a f = min q 1021 := by
  rw [toneRegister, h]
  rfl

theorem toneRegister_of_inf {a : FreqArith} {f : BitVec 64} (h : floorQuotient a f = none) :
    toneRegister a f = 1021 := by
  rw [toneRegister, h]
  rfl

theorem toneRegister_le (a : FreqArith) (f : BitVec 64) : toneRegister a f ≤ 1021 := by
  cases h : floorQuotient a f with
  | none => exact (toneRegister_of_inf h).le
  | some q => exact (toneRegister_of_floor h).trans_le (min_le_right q 1021)

/-- Settles O32: the exact floor is the formula by definition, and the clamp is a minimum. -/
theorem exactToneRegisterIsTheFormula : Obligations.ExactToneRegisterIsTheFormula := by
  intro f _
  exact (toneRegister_of_floor (a := .exact) rfl).trans (min_comm _ _)

/-! ## The encoder's functions inside and outside their domains (R110, R117, R119, R134) -/

/-- `enc_frequency` of legal arguments is the latch byte and the data byte, each the sum of its fields. -/
theorem encFrequency_legal (p : Params) {ch : Int} {f : BitVec 64} (hch : 0 ≤ ch ∧ ch ≤ 2)
    (hf : legalFrequency f = true) :
    encFrequency p ch f = .ok [BitVec.ofNat 8 (0x80 + 32 * ch.toNat + toneRegister p.freqArith f % 16),
      BitVec.ofNat 8 (toneRegister p.freqArith f / 16)] := by
  have hreg := toneRegister_le p.freqArith f
  rw [encFrequency, frequencyRows_legal _ hch.1 hch.2 hf, rowBytes, toneRows_bytes p (by omega) (by omega)]

theorem frequencyRows_illegal (arith : FreqArith) {ch : Int} {f : BitVec 64}
    (h : ¬((0 ≤ ch ∧ ch ≤ 2) ∧ legalFrequency f = true)) : frequencyRows arith ch f = .error .outOfRange := by
  by_cases hch : 0 ≤ ch ∧ ch ≤ 2
  · have hf : legalFrequency f = false := Bool.eq_false_iff.mpr fun hf => h ⟨hch, hf⟩
    rw [frequencyRows, if_neg (not_not.mpr hch), if_pos hf]
  · exact if_pos hch

theorem volumeRows_illegal {ch vol : Int} (h : ¬((0 ≤ ch ∧ ch ≤ 3) ∧ 0 ≤ vol ∧ vol ≤ 15)) :
    volumeRows ch vol = .error .outOfRange := by
  by_cases hch : 0 ≤ ch ∧ ch ≤ 3
  · rw [volumeRows, if_neg (not_not.mpr hch), if_pos fun hvol => h ⟨hch, hvol⟩]
  · exact if_pos hch

theorem noiseRows_illegal {mode rate : Int} (h : ¬((0 ≤ mode ∧ mode ≤ 1) ∧ 0 ≤ rate ∧ rate ≤ 3)) :
    noiseRows mode rate = .error .outOfRange := by
  by_cases hmode : 0 ≤ mode ∧ mode ≤ 1
  · rw [noiseRows, if_neg (not_not.mpr hmode), if_pos fun hrate => h ⟨hmode, hrate⟩]
  · exact if_pos hmode

theorem legal_of_encFrequency {p : Params} {ch : Int} {f : BitVec 64} {bs : List Byte}
    (h : encFrequency p ch f = .ok bs) : (0 ≤ ch ∧ ch ≤ 2) ∧ legalFrequency f = true := by
  by_contra hillegal
  rw [encFrequency, frequencyRows_illegal _ hillegal] at h
  cases h

theorem legal_of_encVolume {p : Params} {ch vol : Int} {bs : List Byte} (h : encVolume p ch vol = .ok bs) :
    (0 ≤ ch ∧ ch ≤ 3) ∧ 0 ≤ vol ∧ vol ≤ 15 := by
  by_contra hillegal
  rw [encVolume, volumeRows_illegal hillegal] at h
  cases h

theorem legal_of_encNoise {p : Params} {mode rate : Int} {bs : List Byte} (h : encNoise p mode rate = .ok bs) :
    (0 ≤ mode ∧ mode ≤ 1) ∧ 0 ≤ rate ∧ rate ≤ 3 := by
  by_contra hillegal
  rw [encNoise, noiseRows_illegal hillegal] at h
  cases h

/-- Settles O31: the clamp by the two cases of the floor; legal arguments give the two bytes. -/
theorem toneRegisterClampsAt1021 : Obligations.ToneRegisterClampsAt1021 := by
  refine fun a f => ⟨toneRegister_le a f, fun q hq hle => ?_, fun q hq hlt => ?_, toneRegister_of_inf,
    fun p ch hlo hhi hf => ⟨_, _, encFrequency_legal p ⟨hlo, hhi⟩ hf⟩⟩
  · rw [toneRegister_of_floor hq, min_eq_left hle]
  · rw [toneRegister_of_floor hq, min_eq_right hlt.le]

/-! ## The bit fields of an encoder output (R124) -/

/-- The field of `len` bits from bit `lo` of a byte given as a number. -/
theorem byteField_ofNat {x : Nat} (hx : x < 256) (lo len : Nat) :
    ((BitVec.ofNat 8 x).extractLsb' lo len).toNat = x / 2 ^ lo % 2 ^ len := by
  rw [BitVec.extractLsb'_toNat, BitVec.toNat_ofNat, Nat.mod_eq_of_lt hx, Nat.shiftRight_eq_div_pow]

/-- Settles O35: an output is the sum of its fields, which stand at powers of two. -/
theorem encoderBitFieldsRecoverTheArguments : Obligations.EncoderBitFieldsRecoverTheArguments := by
  refine fun p => ⟨fun ch f bs h => ?_, fun ch vol bs h => ?_, fun mode rate bs h => ?_⟩
  · obtain ⟨hch, hf⟩ := legal_of_encFrequency h
    have hreg := toneRegister_le p.freqArith f
    rw [encFrequency_legal p hch hf] at h
    cases h
    refine ⟨_, _, rfl, ?_, ?_⟩
    · rw [byteField_ofNat (by omega)]
      omega
    · rw [byteField_ofNat (by omega), byteField_ofNat (by omega)]
      omega
  · obtain ⟨hch, hvol⟩ := legal_of_encVolume h
    rw [encVolume_legal p hch hvol] at h
    cases h
    refine ⟨_, rfl, ?_, ?_⟩ <;> rw [byteField_ofNat (by omega)] <;> omega
  · obtain ⟨hmode, hrate⟩ := legal_of_encNoise h
    rw [encNoise_legal p hmode hrate] at h
    cases h
    have hbit4 : (if p.noiseBit4 then 16 else 0) = 16 * p.noiseBit4.toNat := by cases p.noiseBit4 <;> rfl
    have hbit := p.noiseBit4.toNat_le
    refine ⟨_, rfl, ?_, ?_⟩ <;> rw [hbit4, byteField_ofNat (by omega)] <;> omega

/-- Settles O36: the ten bits are the register (O35), which is clamped. -/
theorem encodedToneIsNeverReserved : Obligations.EncodedToneIsNeverReserved := by
  intro p ch f b1 b2 h
  obtain ⟨c1, c2, hbytes, -, hreg⟩ := (encoderBitFieldsRecoverTheArguments p).1 ch f _ h
  cases hbytes
  exact hreg.trans_le (toneRegister_le p.freqArith f)

/-! ## The encoder's requests (R116, R118, R120) -/

/-- An encoder operation whose rows are PSG output rows writes their bytes and no register, and reports success. -/
theorem encoderOp_writes (op : OpKind) {rows : Except ErrorKind (List Instr)} {s : State} {bs : List Byte}
    (hidle : s.phase = .idle) (hpsg : ∀ is, rows = .ok is → ∀ i ∈ is, i.inStream = false)
    (hbytes : rowBytes s.params rows = .ok bs) :
    ∃ t, encoderOp op rows s = .next t ∧ t.bus = s.bus ++ bs ∧ s.SameRegisters t ∧ t.requests = s.requests ∧
      s.Reported t op .ok := by
  cases rows with
  | error e => cases hbytes
  | ok is =>
    cases hbytes
    refine ⟨_, encoderOp_ok op (hpsg is rfl) s, ?_⟩
    simp [State.SameRegisters, State.Reported, hidle]

/-- An encoder operation outside its domain writes nothing and reports OutOfRange (R134). -/
theorem encoderOp_rejects (op : OpKind) {rows : Except ErrorKind (List Instr)} (hrows : rows = .error .outOfRange)
    (s : State) :
    ∃ t, encoderOp op rows s = .next t ∧ t.bus = s.bus ∧ s.SameRegisters t ∧ t.requests = s.requests ∧
      s.Reported t op (.error .outOfRange) := by
  subst hrows
  obtain ⟨hregisters, hbus, hrequests, hreported⟩ := raise_effect op .outOfRange s
  exact ⟨_, encoderOp_error op .outOfRange s, hbus, hregisters, hrequests, hreported⟩

/-- Settles O26: the request is the encoder operation of the frequency's rows. -/
theorem setFreqWritesLatchThenData : Obligations.SetFreqWritesLatchThenData := by
  intro s rest ch f hreq
  rw [step_of_requesting hreq]
  refine ⟨fun hlo hhi hf => ?_, fun h => ?_⟩
  · exact encoderOp_writes .setFreq (s := { s with requests := rest }) hreq.1 (fun _ => frequencyRows_psg)
      (encFrequency_legal s.params ⟨hlo, hhi⟩ hf)
  · refine encoderOp_rejects .setFreq (frequencyRows_illegal _ ?_) { s with requests := rest }
    rintro ⟨hch, hf⟩
    rcases h with h | h | h
    · omega
    · omega
    · exact absurd hf (Bool.eq_false_iff.mp h)

/-- Settles O28: the request is the encoder operation of the volume's row. -/
theorem setVolWritesInvertedVolume : Obligations.SetVolWritesInvertedVolume := by
  intro s rest ch vol hreq
  rw [step_of_requesting hreq]
  refine ⟨fun hch hch' hvol hvol' => ?_, fun h => ?_⟩
  · exact encoderOp_writes .setVol (s := { s with requests := rest }) hreq.1 (fun _ => volumeRows_psg)
      (encVolume_legal s.params ⟨hch, hch'⟩ ⟨hvol, hvol'⟩)
  · exact encoderOp_rejects .setVol (volumeRows_illegal (by omega)) { s with requests := rest }

/-- Settles O29: the request is the encoder operation of the noise row. -/
theorem setNoiseWritesModeAndRate : Obligations.SetNoiseWritesModeAndRate := by
  intro s rest mode rate hreq
  rw [step_of_requesting hreq]
  refine ⟨fun hmode hmode' hrate hrate' => ?_, fun h => ?_⟩
  · exact encoderOp_writes .setNoise (s := { s with requests := rest }) hreq.1 (fun _ => noiseRows_psg)
      (encNoise_legal s.params ⟨hmode, hmode'⟩ ⟨hrate, hrate'⟩)
  · exact encoderOp_rejects .setNoise (noiseRows_illegal (by omega)) { s with requests := rest }

/-! ## Rounding to nearest, ties to even (R111, D15) -/

/-- Settles O34: rounding up needs a remainder of at least half of `d`, rounding down of at most half; at half the
even neighbour is taken. -/
theorem roundingIsNearestEven : Obligations.RoundingIsNearestEven := by
  intro n d hd
  have hmod := Nat.mod_lt n hd
  have hdiv : n = n / d * d + n % d := (Nat.div_add_mod' n d).symm
  simp only [roundHalfEven]
  split
  · next hup =>
    rw [Nat.add_one_mul (n / d) d]
    generalize n / d * d = qd at hdiv ⊢
    omega
  · next hdown =>
    generalize n / d * d = qd at hdiv ⊢
    omega

/-- The rounding step in rationals (O34 divided by `2 d`). -/
theorem abs_sub_roundHalfEven {n d : Nat} (hd : 0 < d) :
    |(n : ℚ) / d - roundHalfEven n d| ≤ 1 / 2 ∧
      (|(n : ℚ) / d - roundHalfEven n d| = 1 / 2 → roundHalfEven n d % 2 = 0) := by
  obtain ⟨habove, hbelow, heven⟩ := roundingIsNearestEven n d hd
  have hd' : (0 : ℚ) < d := by exact_mod_cast hd
  have hnear : |2 * (n : ℚ) - 2 * (roundHalfEven n d * d)| ≤ d := by
    rw [abs_sub_le_iff, sub_le_iff_le_add', sub_le_iff_le_add']
    exact_mod_cast And.intro habove hbelow
  have htie : |2 * (n : ℚ) - 2 * (roundHalfEven n d * d)| = d → roundHalfEven n d % 2 = 0 := by
    intro h
    rcases eq_or_eq_neg_of_abs_eq h with h | h
    · have hhalfAbove : 2 * (n : ℚ) = 2 * (roundHalfEven n d * d) + d := by linarith
      exact heven (.inl (by exact_mod_cast hhalfAbove))
    · have hhalfBelow : 2 * (roundHalfEven n d * d : ℚ) = 2 * n + d := by linarith
      exact heven (.inr (by exact_mod_cast hhalfBelow))
  have hpos : (0 : ℚ) < 2 * d := by positivity
  have hscale : (n : ℚ) / d - roundHalfEven n d = (2 * n - 2 * (roundHalfEven n d * d)) / (2 * d) := by field_simp
  have hhalf : (1 : ℚ) / 2 = d / (2 * d) := by field_simp
  rw [hscale, abs_div, abs_of_pos hpos, hhalf, div_le_div_iff_of_pos_right hpos, div_left_inj' hpos.ne']
  exact ⟨hnear, htie⟩

/-! ## Rounding to binary64 (R111, D15) -/

/-- The last place is 52 below the leading bit, or the subnormal spacing where that is higher. -/
theorem lastPlace_cases (n d : Nat) :
    (lastPlace n d = floorLog2 n d - 52 ∧ -1074 ≤ lastPlace n d) ∨
      (lastPlace n d = -1074 ∧ floorLog2 n d - 52 ≤ lastPlace n d) := by
  unfold lastPlace
  omega

theorem roundedSignificand_le {n d : Nat} (hn : 0 < n) (hd : 0 < d) : roundedSignificand n d ≤ 2 ^ 53 := by
  have hd' : 0 < d * 2 ^ (lastPlace n d).toNat := by positivity
  have hplace : floorLog2 n d + 1 ≤ 53 + lastPlace n d := by have := lastPlace_cases n d; omega
  refine roundHalfEven_le hd' (le_mul_of_div_le hd' ?_)
  rw [scaled_fraction n d hd, zpow_neg, ← div_eq_mul_inv, div_le_iff₀ (by positivity)]
  calc (n : ℚ) / d ≤ 2 ^ (floorLog2 n d + 1) := (floorLog2_spec hn hd).2.le
    _ ≤ 2 ^ (53 + lastPlace n d) := zpow_le_zpow_right₀ one_le_two hplace
    _ = ((2 ^ 53 : Nat) : ℚ) * 2 ^ lastPlace n d := by rw [zpow_add₀ two_ne_zero]; norm_num

/-- Above the smallest spacing the significand has its leading bit. -/
theorem le_roundedSignificand {n d : Nat} (hn : 0 < n) (hd : 0 < d) (h : lastPlace n d ≠ -1074) :
    2 ^ 52 ≤ roundedSignificand n d := by
  have hd' : 0 < d * 2 ^ (lastPlace n d).toNat := by positivity
  have hplace : floorLog2 n d = 52 + lastPlace n d := by have := lastPlace_cases n d; omega
  refine le_roundHalfEven hd' (mul_le_of_le_div hd' ?_)
  rw [scaled_fraction n d hd, zpow_neg, ← div_eq_mul_inv, le_div_iff₀ (by positivity)]
  calc ((2 ^ 52 : Nat) : ℚ) * 2 ^ lastPlace n d = 2 ^ floorLog2 n d := by
        rw [hplace, zpow_add₀ two_ne_zero]; norm_num
    _ ≤ (n : ℚ) / d := (floorLog2_spec hn hd).1

/-- The rounded value is the nearest multiple of its last place, the even one on a tie. -/
theorem abs_sub_roundedValue {n d : Nat} (hd : 0 < d) :
    |(n : ℚ) / d - roundedValue n d| ≤ 2 ^ lastPlace n d / 2 ∧
      (|(n : ℚ) / d - roundedValue n d| = 2 ^ lastPlace n d / 2 → roundedSignificand n d % 2 = 0) := by
  have hunit : (0 : ℚ) < 2 ^ lastPlace n d := by positivity
  have hd' : 0 < d * 2 ^ (lastPlace n d).toNat := by positivity
  obtain ⟨hnear, heven⟩ := abs_sub_roundHalfEven (n := n * 2 ^ (-(lastPlace n d)).toNat) hd'
  rw [scaled_fraction n d hd] at hnear heven
  have hscale : |(n : ℚ) / d - roundedValue n d| =
      |(n : ℚ) / d * 2 ^ (-lastPlace n d) - roundedSignificand n d| * 2 ^ lastPlace n d := by
    calc |(n : ℚ) / d - roundedValue n d|
        = |((n : ℚ) / d * 2 ^ (-lastPlace n d) - roundedSignificand n d) * 2 ^ lastPlace n d| := by
          rw [sub_mul, zpow_neg, inv_mul_cancel_right₀ hunit.ne', roundedValue]
      _ = _ := by rw [abs_mul, abs_of_pos hunit]
  rw [hscale, ← one_div_mul_eq_div 2 (2 ^ lastPlace n d), mul_le_mul_iff_left₀ hunit, mul_left_inj' hunit.ne']
  exact ⟨hnear, heven⟩

/-- A finite result is the rounded significand at the last place. -/
theorem eq_of_roundToBinary64_fin {n d m : Nat} {k : Int} (hn : 0 < n) (h : roundToBinary64 n d = .fin m k) :
    m = roundedSignificand n d ∧ k = lastPlace n d := by
  rw [roundToBinary64, if_neg hn.ne'] at h
  simp only at h
  split at h
  · cases h
  · cases h
    exact ⟨rfl, rfl⟩

/-- Settles O59: the significand and the place that rounding picks, before its overflow test. -/
theorem roundToBinary64IsNearestEven : Obligations.RoundToBinary64IsNearestEven := by
  refine ⟨fun n d hn hd => ?_, fun d => rfl⟩
  obtain ⟨hnear, heven⟩ := abs_sub_roundedValue (n := n) hd
  have hlow : -1074 ≤ lastPlace n d := by have := lastPlace_cases n d; omega
  refine ⟨roundedSignificand n d, lastPlace n d, roundedSignificand_le hn hd, hlow,
    (eq_or_ne _ _).symm.imp_left (le_roundedSignificand hn hd), hnear, heven, ?_⟩
  rcases roundToBinary64_cases n d hn with ⟨hinf, hhigh⟩ | ⟨m, k, hfin, -, hbelow⟩
  · exact .inr ⟨hhigh, hinf⟩
  · obtain ⟨rfl, rfl⟩ := eq_of_roundToBinary64_fin hn hfin
    exact .inl ⟨hbelow, hfin⟩

/-! ## The binary64 quotient (R110, R111) -/

/-- The value of a legal pattern. -/
def frequencyValue (f : BitVec 64) : ℚ := (significandOf f : ℚ) * 2 ^ exponentOf f

theorem frequencyValue_pos {f : BitVec 64} (h : legalFrequency f = true) : 0 < frequencyValue f := by
  have hsig : (0 : ℚ) < significandOf f := by exact_mod_cast (significandOf_bounds h).1
  unfold frequencyValue
  positivity

/-- The quotient of R110 as the fraction of naturals that both arithmetics compute with. -/
theorem exactQuotient (f : BitVec 64) :
    ((3579545 * denOf (exponentOf f) : Nat) : ℚ) / ((32 * numOf (significandOf f) (exponentOf f) : Nat) : ℚ) =
      3579545 / (32 * frequencyValue f) := by
  have hden : (denOf (exponentOf f) : ℚ) ≠ 0 := by exact_mod_cast (denOf_pos _).ne'
  rw [frequencyValue, ← numOf_div_denOf]
  push_cast
  field_simp

theorem significand_pos_of_value_pos {m : Nat} {e : Int} (h : (0 : ℚ) < m * 2 ^ e) : 0 < m := by
  exact_mod_cast pos_of_mul_pos_left h (by positivity)

/-- A product by a power of two is exact, or overflows (R111). -/
theorem mulNat_two_pow {m a : Nat} {e e' : Int} (j : Nat) (hpos : 0 < a) (ha : a < 2 ^ 53) (he : -1074 ≤ e')
    (hv : (m : ℚ) * 2 ^ e = a * 2 ^ e') :
    (NonNeg64.mulNat (.fin m e) (2 ^ j) = .inf ∧ (2 : ℚ) ^ 1024 ≤ a * 2 ^ (e' + j)) ∨
      ∃ m1 e1, NonNeg64.mulNat (.fin m e) (2 ^ j) = .fin m1 e1 ∧ (m1 : ℚ) * 2 ^ e1 = a * 2 ^ (e' + j) ∧
        (a : ℚ) * 2 ^ (e' + j) < 2 ^ 1024 := by
  have hm : 0 < m := significand_pos_of_value_pos (e := e) (by rw [hv]; positivity)
  refine mulNat_exact m e (2 ^ j) (by positivity) a (e' + j) hm ha (by omega) ?_
  rw [hv, zpow_add₀ two_ne_zero, zpow_natCast, mul_assoc]
  push_cast
  rfl

/-- The divisor `32 f` of R110, in the written order: exact, or plus infinity. -/
theorem toneDivisor_cases {f : BitVec 64} (h : legalFrequency f = true) :
    (((valueOf f).mulNat 2).mulNat 16 = .inf ∧ (2 : ℚ) ^ 1024 ≤ 32 * frequencyValue f) ∨
      ∃ m e, ((valueOf f).mulNat 2).mulNat 16 = .fin m e ∧ (m : ℚ) * 2 ^ e = 32 * frequencyValue f ∧
        32 * frequencyValue f < 2 ^ 1024 := by
  obtain ⟨hpos, hwidth, hlow⟩ := significandOf_bounds h
  have hscale : (significandOf f : ℚ) * 2 ^ (exponentOf f + 1 + 4) = 32 * frequencyValue f := by
    rw [add_assoc, zpow_add₀ two_ne_zero, frequencyValue]
    norm_num
    ring
  rw [← hscale]
  rcases mulNat_two_pow 1 hpos hwidth hlow rfl with ⟨hinf, hhigh⟩ | ⟨m, e, hfin, hvalue, -⟩
  · refine .inl ⟨congrArg (NonNeg64.mulNat · 16) hinf, hhigh.trans ?_⟩
    gcongr <;> norm_num
  · rw [show (valueOf f).mulNat 2 = .fin m e from hfin]
    exact mulNat_two_pow 4 hpos hwidth (by omega) hvalue

/-- Where `32 f` overflows the quotient is zero. -/
theorem floorQuotient_of_overflow {f : BitVec 64} (h : legalFrequency f = true)
    (hhigh : (2 : ℚ) ^ 1024 ≤ 32 * frequencyValue f) : floorQuotient .binary64 f = some 0 := by
  rcases toneDivisor_cases h with ⟨hinf, -⟩ | ⟨m, e, -, -, hbelow⟩
  · rw [floorQuotient, hinf]
    rfl
  · exact absurd hbelow hhigh.not_gt

/-- Elsewhere only the division rounds: its result is the binary64 of any fraction of the value `3579545 / (32 f)`. -/
theorem floorQuotient_of_fraction {f : BitVec 64} (h : legalFrequency f = true)
    (hbelow : 32 * frequencyValue f < (2 : ℚ) ^ 1024) {n d : Nat} (hd : 0 < d)
    (hq : (n : ℚ) / d = 3579545 / (32 * frequencyValue f)) :
    0 < n ∧ floorQuotient .binary64 f = (roundToBinary64 n d).floor := by
  have hpos := frequencyValue_pos h
  have hn : 0 < n := by
    have hquotient : (0 : ℚ) < n / d := by rw [hq]; positivity
    exact_mod_cast (div_pos_iff_of_pos_right (by exact_mod_cast hd)).mp hquotient
  refine ⟨hn, ?_⟩
  rcases toneDivisor_cases h with ⟨-, hhigh⟩ | ⟨m, e, hfin, hvalue, -⟩
  · exact absurd hbelow hhigh.not_gt
  · have hm : 0 < m := significand_pos_of_value_pos (e := e) (by rw [hvalue]; positivity)
    have hfraction : ((3579545 * denOf e : Nat) : ℚ) / numOf m e = n / d := by
      rw [hq, ← hvalue, ← numOf_div_denOf]
      push_cast
      rw [div_div_eq_mul_div]
    rw [floorQuotient, hfin, NonNeg64.natDiv, if_neg hm.ne',
      ← roundToBinary64_congr (Nat.mul_pos (by norm_num) (denOf_pos e)) (numOf_pos e hm) hn hd hfraction]
    rfl

theorem floor_fin (m : Nat) (k : Int) : (NonNeg64.fin m k).floor = some ⌊(m : ℚ) * 2 ^ k⌋₊ := by
  rw [NonNeg64.floor, ← numOf_div_denOf, Nat.floor_div_eq_div]

/-- Settles O60: the fields by the pattern's number, the quotient by the exact divisor. -/
theorem binaryQuotientIsRoundedOnce : Obligations.BinaryQuotientIsRoundedOnce := by
  refine fun f h => ⟨pattern_subnormal h, pattern_normal h, floorQuotient_of_overflow h, fun hbelow n d hd hq => ?_⟩
  rw [(floorQuotient_of_fraction h hbelow hd hq).2]
  refine ⟨fun m k hfin => ?_, fun hinf => ?_⟩
  · rw [hfin, floor_fin]
  · rw [hinf]
    rfl

/-! ## The two readings of the tone register (U6) -/

/-- An integer up to the clamp is at most the exact register exactly when it is at most the quotient. -/
theorem le_toneRegister_exact {f : BitVec 64} {j : Nat} (hj : j ≤ 1021) :
    j ≤ toneRegister .exact f ↔ (j : ℚ) ≤ 3579545 / (32 * frequencyValue f) := by
  rw [toneRegister_of_floor (a := .exact) rfl, le_min_iff, and_iff_left hj, ← exactQuotient,
    ← Nat.le_floor_iff (by positivity), Nat.floor_div_eq_div]
  rfl

/-- The same for the binary64 register and the rounded quotient. -/
theorem le_toneRegister_binary64 {f : BitVec 64} {n d j : Nat} (hn : 0 < n) (hj : j ≤ 1021)
    (hfloor : floorQuotient .binary64 f = (roundToBinary64 n d).floor) :
    j ≤ toneRegister .binary64 f ↔ (j : ℚ) ≤ roundedValue n d := by
  rcases roundToBinary64_cases n d hn with ⟨hinf, hhigh⟩ | ⟨m, k, hfin, hvalue, -⟩
  · rw [toneRegister_of_inf (hfloor.trans (by rw [hinf]; rfl))]
    have hclamp : (j : ℚ) ≤ 2 ^ 1024 :=
      calc (j : ℚ) ≤ 1021 := by exact_mod_cast hj
        _ ≤ 2 ^ 10 := by norm_num
        _ ≤ 2 ^ 1024 := pow_le_pow_right₀ one_le_two (by norm_num)
    exact iff_of_true hj (hclamp.trans hhigh)
  · rw [toneRegister_of_floor (hfloor.trans (by rw [hfin]; rfl)), le_min_iff, and_iff_left hj, le_floor_iff, hvalue]

/-- Where `32 f` is beyond binary64 the exact quotient is below 1. -/
theorem toneRegister_exact_of_overflow {f : BitVec 64} (hhigh : (2 : ℚ) ^ 1024 ≤ 32 * frequencyValue f) :
    toneRegister .exact f = 0 := by
  have hlarge : (3579545 : ℚ) < 32 * frequencyValue f :=
    calc (3579545 : ℚ) < 2 ^ 22 := by norm_num
      _ ≤ 2 ^ 1024 := pow_le_pow_right₀ one_le_two (by norm_num)
      _ ≤ 32 * frequencyValue f := hhigh
  have hnot : ¬1 ≤ toneRegister .exact f := by
    rw [le_toneRegister_exact (by norm_num), Nat.cast_one, not_le]
    exact (div_lt_one (lt_trans (by norm_num) hlarge)).mpr hlarge
  omega

/-- Settles O33: rounding does not pass an integer, so the rounded quotient stands with the exact one between the exact
register and the next integer, which it may reach. -/
theorem binaryToneRegisterIsExactOrOneMore : Obligations.BinaryToneRegisterIsExactOrOneMore := by
  intro f h
  rcases le_or_gt ((2 : ℚ) ^ 1024) (32 * frequencyValue f) with hhigh | hbelow
  · rw [toneRegister_exact_of_overflow hhigh, toneRegister_of_floor (floorQuotient_of_overflow h hhigh)]
    exact ⟨by norm_num, by norm_num⟩
  · have hq := exactQuotient f
    set n := 3579545 * denOf (exponentOf f)
    set d := 32 * numOf (significandOf f) (exponentOf f)
    have hd : 0 < d := Nat.mul_pos (by norm_num) (numOf_pos _ (significandOf_bounds h).1)
    obtain ⟨hn, hfloor⟩ := floorQuotient_of_fraction h hbelow hd hq
    have hexact := toneRegister_le .exact f
    have hbinary := toneRegister_le .binary64 f
    constructor
    · rw [le_toneRegister_binary64 hn hexact hfloor]
      refine le_roundedValue n d _ hn hd (by omega) ?_
      rw [hq, ← le_toneRegister_exact hexact]
    · by_contra hmore
      have hnext : toneRegister .exact f + 1 ≤ 1021 := by omega
      have hquotient : (n : ℚ) / d ≤ (toneRegister .exact f + 1 : Nat) := by
        rw [hq]
        exact (lt_of_not_ge (mt (le_toneRegister_exact hnext).mpr (by omega))).le
      have hrounded := roundedValue_le n d _ hn hd (by omega) hquotient
      have hreached := (le_toneRegister_binary64 hn hbinary hfloor).mp le_rfl
      exact hmore (by exact_mod_cast hreached.trans hrounded)

end Sys2Proof.Machine

/-! # The exceptions family: what an idle block holds, who is refused, which error a LOAD raises, and a FRAME that is
requested again after an error (O9, O48, O5, O54) -/

namespace Sys2Proof.Machine

/-- Settles O9: no FRAME is decoding and no request is there to perform. -/
theorem idleBlockHoldsItsState : Obligations.IdleBlockHoldsItsState := by
  intro s hidle hnone
  simp only [step, stepState, hidle, hnone]

/-! ## Only LOAD refuses (R145, R150, R168) -/

/-- A sum that leaves 32 bits is a fault, so that only what follows the addition could be refused. -/
theorem withWTicks_ne_refused (s : State) (v : Int) (k : State → State) (r : Refusal) :
    withWTicks s v (fun u => .next (k u)) ≠ .refused r := by
  unfold withWTicks
  split <;> nofun

/-- Every row has a meaning. -/
theorem exec_ne_refused (i : Instr) (s : State) (r : Refusal) : exec i s ≠ .refused r := by
  cases i with
  | psgw dd =>
    rw [exec_psgw_eq]
    split <;> nofun
  | waitN n =>
    rw [exec, execWaitN]
    split
    · exact withWTicks_ne_refused s _ _ r
    · nofun
  | wait1 =>
    rw [exec, execWait1]
    exact withWTicks_ne_refused s _ _ r
  | endData =>
    rw [exec, execEndData]
    split <;> nofun
  | illegal b => nofun
  | pToneLatch ch lo => nofun
  | pToneData hi => nofun
  | pVol ch att => nofun
  | pNoise mode rate => nofun

theorem turn_ne_refused (s : State) (r : Refusal) : turn s ≠ .refused r := by
  unfold turn
  split
  · exact exec_ne_refused _ s r
  · nofun

theorem startFrame_ne_refused (s : State) (r : Refusal) : startFrame s ≠ .refused r := by
  unfold startFrame
  split
  · nofun
  · split
    · nofun
    · split <;> nofun

theorem encoderOp_ne_refused {op : OpKind} {rows : Except ErrorKind (List Instr)} {s : State} {r : Refusal}
    (hrows : ∀ is, rows = .ok is → ∀ i ∈ is, i.inStream = false) : encoderOp op rows s ≠ .refused r := by
  cases rows with
  | error k => nofun
  | ok is =>
    rw [encoderOp_ok op (hrows is rfl)]
    nofun

theorem perform_refused {op : HostOp} {s : State} {r : Refusal} (h : perform op s = .refused r) :
    ∃ src, op = .load src := by
  cases op with
  | init => cases h
  | reset => cases h
  | load src => exact ⟨src, rfl⟩
  | frame => exact absurd h (startFrame_ne_refused s r)
  | setFreq ch f => exact absurd h (encoderOp_ne_refused fun _ => frequencyRows_psg)
  | setVol ch vol => exact absurd h (encoderOp_ne_refused fun _ => volumeRows_psg)
  | setNoise mode rate => exact absurd h (encoderOp_ne_refused fun _ => noiseRows_psg)
  | readStatus => cases h

/-- Settles O48: no Turn is refused, and of the requests only a LOAD. -/
theorem onlyLoadCanBeRefused : Obligations.OnlyLoadCanBeRefused := by
  intro s r h
  unfold step stepState at h
  split at h
  · exact absurd h (turn_ne_refused s r)
  · next hidle =>
    split at h
    · cases h
    · next op rest hreq =>
      obtain ⟨src, rfl⟩ := perform_refused h
      exact ⟨hidle, src, rest, hreq⟩

/-! ## The two reads of a LOAD and its header (R163, R164, R168) -/

theorem readExact_of_short {n : Nat} {io : Bool} {bs : List Byte} (h : io = true ∨ bs.length < n) :
    readExact n io bs = none :=
  if_pos h

theorem readExact_of_present {n : Nat} {bs : List Byte} (h : n ≤ bs.length) :
    readExact n false bs = some (bs.take n, bs.drop n) :=
  if_neg (by simpa using h)

theorem headerError_of_magic {h : List Byte} (hmagic : h.take 4 ≠ Config.magic) : headerError h = some .invalidHeader :=
  if_pos hmagic

theorem headerError_of_version {h : List Byte} (hmagic : h.take 4 = Config.magic)
    (hversion : le32At h 8 ≠ Config.vgmVersion) : headerError h = some .unsupportedVersion :=
  (if_neg (not_not.mpr hmagic)).trans (if_pos hversion)

theorem headerError_of_clock {h : List Byte} (hmagic : h.take 4 = Config.magic)
    (hversion : le32At h 8 = Config.vgmVersion) (hclock : le32At h 12 ≠ Config.psgClock) :
    headerError h = some .unsupportedClock := by
  simp [headerError, hmagic, hversion, hclock]

theorem headerError_eq_none {h : List Byte} (hmagic : h.take 4 = Config.magic)
    (hversion : le32At h 8 = Config.vgmVersion) (hclock : le32At h 12 = Config.psgClock) : headerError h = none := by
  simp [headerError, hmagic, hversion, hclock]

theorem payloadLength_eq (h : List Byte) : payloadLength h = le32At h 4 - 60 := by
  unfold payloadLength eofOffset Config.headerLen
  omega

theorem loopIndex_eq (h : List Byte) : loopIndex h = le32At h 28 - 36 := by
  unfold loopIndex loopValue
  omega

/-- A header within R168 breaks no precondition. -/
theorem headerRefusal_eq_none {aw : Nat} {h : List Byte} (hsign : 60 ≤ le32At h 4) (hwidth : le32At h 4 - 60 < 2 ^ aw)
    (hloop : le32At h 28 ≠ 0 → 36 ≤ le32At h 28 ∧ le32At h 28 - 36 ≤ le32At h 4 - 60) : headerRefusal aw h = none := by
  rw [headerRefusal, payloadLength_eq, loopIndex_eq, eofOffset, loopValue, if_neg (not_lt.mpr hsign),
    if_neg (not_le.mpr hwidth)]
  by_cases hzero : le32At h 28 = 0
  · exact if_pos hzero
  · obtain ⟨hlow, hhigh⟩ := hloop hzero
    rw [if_neg hzero, if_neg (not_lt.mpr hlow), if_neg (not_lt.mpr hhigh)]

/-! ## How the reading of a file ends in an error (R171, R143) -/

theorem readSong_of_short_header (aw : Nat) {src : ByteSource}
    (h : src.headerIoError = true ∨ src.bytes.length < 64) : readSong aw src = .error .truncatedFile := by
  rw [readSong, readExact_of_short (n := Config.headerLen) h]

theorem readSong_of_headerError (aw : Nat) {src : ByteSource} {e : ErrorKind} (hio : src.headerIoError = false)
    (hlen : 64 ≤ src.bytes.length) (he : headerError (src.bytes.take 64) = some e) : readSong aw src = .error e := by
  rw [readSong, hio, readExact_of_present (n := Config.headerLen) hlen]
  simp only [Config.headerLen, he]

theorem readSong_of_short_payload {aw : Nat} {src : ByteSource} (hio : src.headerIoError = false)
    (hlen : 64 ≤ src.bytes.length) (he : headerError (src.bytes.take 64) = none)
    (hr : headerRefusal aw (src.bytes.take 64) = none)
    (hshort : src.payloadIoError = true ∨ src.bytes.length < 64 + (le32At (src.bytes.take 64) 4 - 60)) :
    readSong aw src = .error .truncatedFile := by
  have hpayload : readExact (payloadLength (src.bytes.take 64)) src.payloadIoError (src.bytes.drop 64) = none := by
    refine readExact_of_short (hshort.imp_right fun hbytes => ?_)
    rw [payloadLength_eq, List.length_drop]
    omega
  rw [readSong, hio, readExact_of_present (n := Config.headerLen) hlen]
  simp only [Config.headerLen, he, hr, hpayload]

/-- A LOAD whose reading ends in an error raises it on the state as it is (R170, D12). -/
theorem loadOp_of_error {src : ByteSource} {s : State} {e : ErrorKind} (h : readSong s.params.aw src = .error e) :
    loadOp src s = .next (raise .load e s) := by
  rw [loadOp, h]

/-- Settles O5: every case ends the reading of the file in its error, and the LOAD raises that on the state as it is. -/
theorem loadErrorsInstallNothing : Obligations.LoadErrorsInstallNothing := by
  rintro s rest src h hreq rfl e hcases
  have hread : readSong s.params.aw src = .error e := by
    rcases hcases with ⟨hshort, rfl⟩ | ⟨⟨hio, hlen⟩, ⟨hmagic, rfl⟩ | ⟨hmagic, hversion, rfl⟩ |
      ⟨hmagic, hversion, hclock, rfl⟩ | ⟨hmagic, hversion, hclock, hsign, hwidth, hloop, hshort, rfl⟩⟩
    · exact readSong_of_short_header _ hshort
    · exact readSong_of_headerError _ hio hlen (headerError_of_magic hmagic)
    · exact readSong_of_headerError _ hio hlen (headerError_of_version hmagic hversion)
    · exact readSong_of_headerError _ hio hlen (headerError_of_clock hmagic hversion hclock)
    · exact readSong_of_short_payload hio hlen (headerError_eq_none hmagic hversion hclock)
        (headerRefusal_eq_none hsign hwidth hloop) hshort
  have hload : perform (.load src) { s with requests := rest } = .next (raise .load e { s with requests := rest }) :=
    loadOp_of_error hread
  exact ⟨_, (step_of_requesting hreq).trans hload, raise_effect .load e { s with requests := rest }⟩

/-! ## The loop of R76 and its starting point (R141)

The loop reads STREAM and the loop registers only, and it appends to BUS whatever stands there already. -/

theorem decodeLoop_congr {s t : State} (h : s.SameStream t) (fuel : Nat) (v : Locals) :
    decodeLoop t fuel v = decodeLoop s fuel v := by
  obtain ⟨hbuf, hlen, hvalid, hloop, -⟩ := h
  induction fuel generalizing v with
  | zero => rfl
  | succ fuel ih => simp only [decodeLoop, hbuf, hlen, hvalid, hloop, ih]

/-- The same locals, on a BUS that `pre` was written to before. -/
def Locals.afterBus (pre : List Byte) (v : Locals) : Locals := { v with bus := pre ++ v.bus }

/-- The same end of the loop, on a BUS that `pre` was written to before. -/
def LoopEnd.afterBus (pre : List Byte) : LoopEnd → LoopEnd
  | .exits v => .exits (v.afterBus pre)
  | .raises e v => .raises e (v.afterBus pre)
  | .overflows => .overflows

theorem exitAfterWait_afterBus (pre : List Byte) (v : Locals) (n k : Nat) :
    exitAfterWait (v.afterBus pre) n k = (exitAfterWait v n k).afterBus pre := by
  simp only [exitAfterWait, Locals.afterBus]
  cases narrowTicks (v.t.toInt + n) with
  | none => rfl
  | some t => rfl

theorem decodeLoop_afterBus (s : State) (pre : List Byte) (fuel : Nat) (v : Locals) :
    decodeLoop s fuel (v.afterBus pre) = (decodeLoop s fuel v).map (LoopEnd.afterBus pre) := by
  induction fuel generalizing v with
  | zero => rfl
  | succ fuel ih =>
    rw [Locals.afterBus]
    simp only [decodeLoop]
    split_ifs with hlen h50 hmissing h61 hmissing h62 h66 hvalid
    · rfl
    · rfl
    · rw [← ih]
      simp only [Locals.afterBus, List.append_assoc]
    · rfl
    · exact congrArg some (exitAfterWait_afterBus pre v _ 3)
    · exact congrArg some (exitAfterWait_afterBus pre v 1 1)
    · exact ih { v with i := s.loopOffset }
    · rfl
    · rfl

/-! ## A FRAME that ends in an error, whatever stands on BUS -/

/-- The FRAME that the pseudocode of R76 runs from `s` raises `e`, after giving `bs` to BUS: its premises name the
registers of `s` and STREAM alone. -/
inductive State.FrameFails (s : State) (fuel : Nat) : ErrorKind → List Byte → Prop
  | finished (hfin : s.finished = true) : s.FrameFails fuel .endOfSong []
  | decoding {w : Ticks} {e : ErrorKind} {v : Locals} (hfin : s.finished = false)
      (hw : narrowTicks (s.ticks.toInt - 1) = some w) (hticks : w.toInt ≤ 0)
      (hloop : decodeLoop s fuel { i := s.offset, t := w, fin := false, bus := [] } = some (.raises e v)) :
      s.FrameFails fuel e v.bus

theorem State.FrameFails.congr {s t : State} {fuel : Nat} {e : ErrorKind} {bs : List Byte} (h : s.FrameFails fuel e bs)
    (hsame : s.SameRegisters t) : t.FrameFails fuel e bs := by
  obtain ⟨hoffset, hregTicks, hregFin, hstream⟩ := hsame
  cases h with
  | finished hfin => exact .finished (hregFin.trans hfin)
  | decoding hfin hw hticks hloop =>
    rw [← hregTicks] at hw
    rw [← hoffset, ← decodeLoop_congr hstream] at hloop
    exact .decoding (hregFin.trans hfin) hw hticks hloop

/-- The loop of a FRAME requested at `s` is the loop on an empty BUS, after the bytes that stand on the BUS of `s`. -/
theorem decodeLoop_from_bus (s : State) (fuel : Nat) (w : Ticks) :
    decodeLoop s fuel { i := s.offset, t := w, fin := false, bus := s.bus } =
      (decodeLoop s fuel { i := s.offset, t := w, fin := false, bus := [] }).map (LoopEnd.afterBus s.bus) := by
  rw [← decodeLoop_afterBus]
  simp only [Locals.afterBus, List.append_nil]

/-- A FRAME that fails raises its error on the registers it was requested with, `bs` standing on BUS. -/
theorem State.FrameFails.frameBigStep_eq {s : State} {fuel : Nat} {e : ErrorKind} {bs : List Byte}
    (h : s.FrameFails fuel e bs) :
    frameBigStep fuel s = some (.next (raise .frame e { s with bus := s.bus ++ bs })) := by
  cases h with
  | finished hfin =>
    rw [List.append_nil]
    exact if_pos hfin
  | decoding hfin hw hticks hloop =>
    rw [frameBigStep, if_neg (by simp [hfin]), hw]
    simp only [if_neg (not_lt.mpr hticks), decodeLoop_from_bus, hloop]
    rfl

/-- Every next state of the pseudocode is one of these: the finished test's, the early return's, or the loop's. -/
theorem frameBigStep_cases {s t : State} {fuel : Nat} (h : frameBigStep fuel s = some (.next t)) :
    (s.finished = true ∧ t = raise .frame .endOfSong s) ∨
    (∃ w, t = earlyReturn w s) ∨
    (∃ w out, s.finished = false ∧ narrowTicks (s.ticks.toInt - 1) = some w ∧ w.toInt ≤ 0 ∧
      decodeLoop s fuel { i := s.offset, t := w, fin := false, bus := s.bus } = some out ∧
      endFrame s out = .next t) := by
  unfold frameBigStep at h
  split at h
  · next hfin =>
    cases h
    exact .inl ⟨hfin, rfl⟩
  · next hfin =>
    split at h
    · cases h
    · next w hw =>
      split at h
      · cases h
        exact .inr (.inl ⟨w, rfl⟩)
      · next hticks =>
        split at h
        · cases h
        · next out hloop =>
          exact .inr (.inr ⟨w, out, by simpa using hfin, hw, not_lt.mp hticks, hloop, Option.some.inj h⟩)

/-- An operation that raises `e` reports `e`. -/
theorem eq_of_raise_results {op : OpKind} {e e' : ErrorKind} {n : Nat} {s : State}
    (h : (raise op e s).results = s.results ++ [{ op := op, result := .error e', busLen := n }]) : e = e' := by
  rw [raise_results, List.append_cancel_left_eq] at h
  cases h
  rfl

/-- An operation that ends with success reports no error. -/
theorem report_ok_results_ne {op : OpKind} {e : ErrorKind} {n : Nat} {s : State} :
    (report op .ok s).results ≠ s.results ++ [{ op := op, result := .error e, busLen := n }] := by
  simp

/-- Conversely, a FRAME of R76 that reports an error fails with it. -/
theorem frameFails_of_reported {s t : State} {fuel n : Nat} {e : ErrorKind} (h : frameBigStep fuel s = some (.next t))
    (hreported : t.results = s.results ++ [{ op := .frame, result := .error e, busLen := n }]) :
    ∃ bs, s.FrameFails fuel e bs := by
  rcases frameBigStep_cases h with ⟨hfin, rfl⟩ | ⟨w, rfl⟩ | ⟨w, out, hfin, hw, hticks, hloop, hend⟩
  · obtain rfl := eq_of_raise_results hreported
    exact ⟨[], .finished hfin⟩
  · exact absurd hreported report_ok_results_ne
  · rw [decodeLoop_from_bus, Option.map_eq_some_iff] at hloop
    obtain ⟨out, hloop, rfl⟩ := hloop
    cases out with
    | exits v =>
      cases hend
      exact absurd hreported report_ok_results_ne
    | raises k v =>
      cases hend
      obtain rfl := eq_of_raise_results hreported
      exact ⟨v.bus, .decoding hfin hw hticks hloop⟩
    | overflows => cases hend

/-- Settles O54: the error leaves the registers (R140), and a FRAME fails by its registers and STREAM alone. -/
theorem frameAfterErrorReplays : Obligations.FrameAfterErrorReplays := by
  intro fuel s t e n h hreported
  obtain ⟨bs, hfails⟩ := frameFails_of_reported h hreported
  obtain rfl : raise .frame e { s with bus := s.bus ++ bs } = t := by
    simpa [hfails.frameBigStep_eq] using h
  obtain ⟨hsame, hbus, -, -⟩ := raise_effect .frame e { s with bus := s.bus ++ bs }
  have hagain := (hfails.congr hsame).frameBigStep_eq
  set t := raise .frame e { s with bus := s.bus ++ bs }
  obtain ⟨husame, hubus, -, hureported⟩ := raise_effect .frame e { t with bus := t.bus ++ bs }
  exact ⟨_, bs, hbus, hagain, hubus, hureported, hsame, husame⟩

end Sys2Proof.Machine

/-! # The reset and load family: INIT, RESET, and the three ways a LOAD with a legal header ends (O4, O6, O7, O1, O2,
O3) -/

namespace Sys2Proof.Machine

/-! ## A header outside R168, by the first precondition it breaks -/

theorem headerRefusal_of_length_negative {aw : Nat} {h : List Byte} (hsign : le32At h 4 < 60) :
    headerRefusal aw h = some .loadLengthNegative :=
  if_pos hsign

theorem headerRefusal_of_length_too_wide {aw : Nat} {h : List Byte} (hsign : 60 ≤ le32At h 4)
    (hwidth : 2 ^ aw ≤ le32At h 4 - 60) : headerRefusal aw h = some .loadLengthTooWide := by
  rw [headerRefusal, payloadLength_eq, eofOffset, if_neg (not_lt.mpr hsign), if_pos hwidth]

/-- A payload of a legal length leaves only the loop to break a precondition. -/
theorem headerRefusal_of_loop {aw : Nat} {h : List Byte} (hsign : 60 ≤ le32At h 4)
    (hwidth : le32At h 4 - 60 < 2 ^ aw) (hloop : le32At h 28 ≠ 0) :
    headerRefusal aw h =
      if le32At h 28 < 36 then some .loadLoopNegative
      else if le32At h 4 - 60 < le32At h 28 - 36 then some .loadLoopBeyondEnd else none := by
  rw [headerRefusal, payloadLength_eq, loopIndex_eq, eofOffset, loopValue, if_neg (not_lt.mpr hsign),
    if_neg (not_le.mpr hwidth), if_neg hloop]

theorem headerRefusal_of_loop_negative {aw : Nat} {h : List Byte} (hsign : 60 ≤ le32At h 4)
    (hwidth : le32At h 4 - 60 < 2 ^ aw) (hpos : 0 < le32At h 28) (hlow : le32At h 28 < 36) :
    headerRefusal aw h = some .loadLoopNegative := by
  rw [headerRefusal_of_loop hsign hwidth hpos.ne', if_pos hlow]

theorem headerRefusal_of_loop_beyond_end {aw : Nat} {h : List Byte} (hsign : 60 ≤ le32At h 4)
    (hwidth : le32At h 4 - 60 < 2 ^ aw) (hlow : 36 ≤ le32At h 28) (hhigh : le32At h 4 - 60 < le32At h 28 - 36) :
    headerRefusal aw h = some .loadLoopBeyondEnd := by
  rw [headerRefusal_of_loop hsign hwidth (by omega), if_neg (not_lt.mpr hlow), if_pos hhigh]

/-! ## How the reading of a file with a legal header ends (R168, R171) -/

theorem readSong_of_headerRefusal {aw : Nat} {src : ByteSource} {r : Refusal} (hio : src.headerIoError = false)
    (hlen : 64 ≤ src.bytes.length) (he : headerError (src.bytes.take 64) = none)
    (hr : headerRefusal aw (src.bytes.take 64) = some r) : readSong aw src = .outside r := by
  rw [readSong, hio, readExact_of_present (n := Config.headerLen) hlen]
  simp only [Config.headerLen, he, hr]

/-- The loop of a header within R168: none if `loop_value` is 0, otherwise its index (R167). -/
def loopOf (h : List Byte) : Option Nat := if le32At h 28 = 0 then none else some (le32At h 28 - 36)

theorem loopOf_of_ne {h : List Byte} (hloop : le32At h 28 ≠ 0) : loopOf h = some (le32At h 28 - 36) :=
  if_neg hloop

theorem isSome_loopOf {h : List Byte} : (loopOf h).isSome = true ↔ le32At h 28 ≠ 0 := by
  simp [loopOf]

/-- The song of a file within R168: the payload its header announces (R166), and its header's loop. -/
def songOf (bs : List Byte) : Song where
  payload := (bs.drop 64).take (le32At (bs.take 64) 4 - 60)
  loop := loopOf (bs.take 64)

theorem readSong_of_present {aw : Nat} {src : ByteSource} (hio : src.headerIoError = false)
    (hlen : 64 ≤ src.bytes.length) (he : headerError (src.bytes.take 64) = none)
    (hr : headerRefusal aw (src.bytes.take 64) = none) (hpio : src.payloadIoError = false)
    (hpresent : 64 + (le32At (src.bytes.take 64) 4 - 60) ≤ src.bytes.length) :
    readSong aw src = .song (songOf src.bytes) := by
  have hpayload : le32At (src.bytes.take 64) 4 - 60 ≤ (src.bytes.drop 64).length := by
    rw [List.length_drop]
    omega
  rw [readSong, hio, hpio, readExact_of_present (n := Config.headerLen) hlen]
  simp only [Config.headerLen, he, hr, payloadLength_eq, readExact_of_present hpayload, loopIndex_eq, loopValue, songOf,
    loopOf]

/-- Settles O6: the header passes the tests of R164, and each clause breaks its precondition first. -/
theorem loadOutsideItsPreconditionsIsRefused : Obligations.LoadOutsideItsPreconditionsIsRefused := by
  rintro s rest src h hreq rfl hio hlen hmagic hversion hclock
  have hrefused {r : Refusal} (hr : headerRefusal s.params.aw (src.bytes.take 64) = some r) :
      step s = .refused r := by
    rw [step_of_requesting hreq, perform, loadOp,
      readSong_of_headerRefusal hio hlen (headerError_eq_none hmagic hversion hclock) hr]
  exact ⟨fun hsign => hrefused (headerRefusal_of_length_negative hsign),
    fun hsign hwidth => hrefused (headerRefusal_of_length_too_wide hsign hwidth),
    fun hsign hwidth hpos hlow => hrefused (headerRefusal_of_loop_negative hsign hwidth hpos hlow),
    fun hsign hwidth hlow hhigh => hrefused (headerRefusal_of_loop_beyond_end hsign hwidth hlow hhigh)⟩

/-! ## INIT and RESET (R160, R161) -/

/-- Settles O1: State.reset gives these values. -/
theorem powerOnStateHasTheInitValues : Obligations.PowerOnStateHasTheInitValues :=
  ⟨rfl, BitVec.toInt_zero, rfl, rfl, rfl, rfl, rfl, rfl⟩

/-- Zeroing PlaybackState writes the reset sequence (R161, R122). -/
theorem resetPlayback_effect (s : State) :
    (resetPlayback s).bus = s.bus ++ [0x9F#8, 0xBF#8, 0xDF#8, 0xFF#8] ∧ (resetPlayback s).offset = 0 ∧
      (resetPlayback s).ticks.toInt = 0 ∧ (resetPlayback s).finished = false := by
  simp [Config.resetSeq]

theorem report_reported {s u : State} (op : OpKind) (r : OpResult) (hidle : u.phase = .idle)
    (hresults : u.results = s.results) : s.Reported (report op r u) op r :=
  ⟨hidle, by rw [report_results, hresults, report_bus]⟩

/-- Settles O2: the reset sequence, then an empty buffer and no loop, which nothing after them changes. -/
theorem initSetsAllState : Obligations.InitSetsAllState := by
  intro s rest h
  obtain ⟨hbus, hoffset, hticks, hfin⟩ := resetPlayback_effect { s with requests := rest }
  refine ⟨_, step_of_requesting h, hbus, hoffset, hticks, hfin, rfl, rfl, rfl, ?_, ?_,
    report_reported .init .ok rfl ?_⟩
  · simp
  · simp
  · simp

/-- Settles O3: RESET is the reset sequence on zeroed playback, which touches neither STREAM nor the loop. -/
theorem resetZeroesPlaybackAndKeepsTheSong : Obligations.ResetZeroesPlaybackAndKeepsTheSong := by
  intro s rest h
  have ⟨hidle, _⟩ := h
  obtain ⟨hbus, hoffset, hticks, hfin⟩ := resetPlayback_effect { s with requests := rest }
  refine ⟨_, step_of_requesting h, hbus, hoffset, hticks, hfin, ?_, ?_, ?_, report_reported .reset .ok ?_ ?_⟩
  · simp [State.SameStream]
  · simp
  · simp
  · simpa using hidle
  · simp

/-! ## LOAD installs the song (R169) -/

@[simp] theorem install_loopValid (v : Song) (s : State) : (install v s).loopValid = v.loop.isSome := by
  unfold install setLoop
  cases v.loop <;> rfl

theorem install_loopOffset {v : Song} {k : Nat} (h : v.loop = some k) (s : State) :
    (install v s).loopOffset = k := by
  simp only [install, setLoop, h]

/-- A file in its three parts, within R168, is read as the middle one and the loop of the first. -/
theorem readSong_append {aw : Nat} {h payload : List Byte} (extra : List Byte) (hlen : h.length = 64)
    (he : headerError h = none) (hr : headerRefusal aw h = none) (hp : payload.length = le32At h 4 - 60) :
    readSong aw { bytes := h ++ payload ++ extra } = .song { payload := payload, loop := loopOf h } := by
  rw [List.append_assoc]
  have hheader : (h ++ (payload ++ extra)).take 64 = h := List.take_left' hlen
  have hpresent : 64 + (le32At ((h ++ (payload ++ extra)).take 64) 4 - 60) ≤ (h ++ (payload ++ extra)).length := by
    rw [hheader, List.length_append, List.length_append]
    omega
  have hsong : songOf (h ++ (payload ++ extra)) = { payload := payload, loop := loopOf h } := by
    simp only [songOf, hheader, List.drop_left' hlen, List.take_left' hp]
  rw [← hsong]
  rw [← hheader] at he hr
  exact readSong_of_present rfl (le_of_add_le_left hpresent) he hr rfl hpresent

/-- A LOAD whose song is read installs it and does what RESET does (R169, D11). -/
theorem loadOp_of_song {src : ByteSource} {s : State} {v : Song} (h : readSong s.params.aw src = .song v) :
    loadOp src s = .next (report .load .ok (resetPlayback (install v s))) := by
  rw [loadOp, h]

/-- Settles O4: the file is within R168, so its song is read; it is installed and playback is reset. -/
theorem loadInstallsTheSong : Obligations.LoadInstallsTheSong := by
  intro s rest h payload extra hreq hlen hmagic hversion hclock hsign hp hwidth hloop
  have ⟨hidle, _⟩ := hreq
  replace hp : payload.length = le32At h 4 - 60 := by omega
  rw [hp] at hwidth hloop
  have hread := readSong_append extra hlen (headerError_eq_none hmagic hversion hclock)
    (headerRefusal_eq_none hsign hwidth hloop) hp
  have hload := loadOp_of_song (s := { s with requests := rest }) hread
  obtain ⟨hbus, hoffset, hticks, hfin⟩ :=
    resetPlayback_effect (install { payload := payload, loop := loopOf h } { s with requests := rest })
  refine ⟨_, (step_of_requesting hreq).trans hload, ?_, fun k _ => ?_, ?_, fun hz => ?_, ?_, hoffset, hticks, hfin, ?_,
    ?_, report_reported .load .ok ?_ ?_⟩
  · simp
  · simpa [Memory.unlisted] using Memory.read_ofBytes 0 k payload
  · simpa using isSome_loopOf
  · simpa using install_loopOffset (loopOf_of_ne hz) _
  · simpa using hbus
  · simp
  · simp
  · simpa using hidle
  · simp

/-! ## LOAD reads no other byte (R163, R165) -/

/-- Two headers agree on the bytes a LOAD uses (R165). -/
abbrev HeadersAgree (h h' : List Byte) : Prop := ∀ k, k < 16 ∨ (28 ≤ k ∧ k < 32) → h.getD k 0 = h'.getD k 0

theorem HeadersAgree.take {bs bs' : List Byte} (h : HeadersAgree bs bs') :
    HeadersAgree (bs.take 64) (bs'.take 64) := by
  intro k hk
  have hlt : k < 64 := by omega
  simpa [List.getD_eq_getElem?_getD, List.getElem?_take_of_lt hlt] using h k hk

theorem HeadersAgree.le32At_eq {h h' : List Byte} (hagree : HeadersAgree h h') {k : Nat}
    (hk : k + 3 < 16 ∨ (28 ≤ k ∧ k + 3 < 32)) : le32At h k = le32At h' k := by
  rw [le32At, le32At, hagree k (by omega), hagree (k + 1) (by omega), hagree (k + 2) (by omega),
    hagree (k + 3) (by omega)]

theorem le32At_take {k n : Nat} (h : k + 3 < n) (bs : List Byte) : le32At (bs.take n) k = le32At bs k := by
  simp only [le32At, List.getD_eq_getElem?_getD, List.getElem?_take_of_lt h,
    List.getElem?_take_of_lt (show k < n by omega), List.getElem?_take_of_lt (show k + 1 < n by omega),
    List.getElem?_take_of_lt (show k + 2 < n by omega)]

theorem HeadersAgree.magic_eq {h h' : List Byte} (hagree : HeadersAgree h h') (hlen : 4 ≤ h.length)
    (hlen' : 4 ≤ h'.length) : h.take 4 = h'.take 4 := by
  refine List.ext_getElem (by simp [hlen, hlen']) fun k hk hk' => ?_
  rw [List.length_take] at hk hk'
  rw [List.getElem_take, List.getElem_take, ← List.getD_eq_getElem h 0, ← List.getD_eq_getElem h' 0,
    hagree k (by omega)]

theorem HeadersAgree.headerError_eq {h h' : List Byte} (hagree : HeadersAgree h h') (hlen : 4 ≤ h.length)
    (hlen' : 4 ≤ h'.length) : headerError h = headerError h' := by
  simp only [headerError, hagree.magic_eq hlen hlen', hagree.le32At_eq (k := 8) (by omega),
    hagree.le32At_eq (k := 12) (by omega)]

theorem HeadersAgree.headerRefusal_eq {h h' : List Byte} (hagree : HeadersAgree h h') (aw : Nat) :
    headerRefusal aw h = headerRefusal aw h' := by
  simp only [headerRefusal, payloadLength_eq, loopIndex_eq, eofOffset, loopValue,
    hagree.le32At_eq (k := 4) (by omega), hagree.le32At_eq (k := 28) (by omega)]

theorem HeadersAgree.loopOf_eq {h h' : List Byte} (hagree : HeadersAgree h h') : loopOf h = loopOf h' := by
  simp only [loopOf, hagree.le32At_eq (k := 28) (by omega)]

/-- The reading ends the same way whichever way it ends: each test sees only what the two sources share, and equal
payloads are present or short together. -/
theorem readSong_congr (aw : Nat) {src src' : ByteSource} (hlen : 64 ≤ src.bytes.length)
    (hlen' : 64 ≤ src'.bytes.length) (hio : src.headerIoError = src'.headerIoError)
    (hpio : src.payloadIoError = src'.payloadIoError) (hagree : HeadersAgree src.bytes src'.bytes)
    (hpayload : (src.bytes.drop 64).take (le32At src.bytes 4 - 60) =
      (src'.bytes.drop 64).take (le32At src.bytes 4 - 60)) : readSong aw src = readSong aw src' := by
  have herror := hagree.take.headerError_eq (by simp; omega) (by simp; omega)
  have hrefusal := hagree.take.headerRefusal_eq aw
  have heof := hagree.take.le32At_eq (k := 4) (by omega)
  rw [← le32At_take (n := 64) (by omega) src.bytes] at hpayload
  by_cases hh : src.headerIoError = true
  · rw [readSong_of_short_header aw (.inl hh), readSong_of_short_header aw (.inl (hio ▸ hh))]
  rw [Bool.not_eq_true] at hh
  cases he : headerError (src.bytes.take 64) with
  | some e =>
    rw [readSong_of_headerError aw hh hlen he, readSong_of_headerError aw (hio ▸ hh) hlen' (herror ▸ he)]
  | none =>
    cases hr : headerRefusal aw (src.bytes.take 64) with
    | some r =>
      rw [readSong_of_headerRefusal hh hlen he hr,
        readSong_of_headerRefusal (hio ▸ hh) hlen' (herror ▸ he) (hrefusal ▸ hr)]
    | none =>
      have hlengths := congrArg List.length hpayload
      simp only [List.length_take, List.length_drop] at hlengths
      by_cases hshort : src.payloadIoError = true ∨ src.bytes.length < 64 + (le32At (src.bytes.take 64) 4 - 60)
      · rw [readSong_of_short_payload hh hlen he hr hshort,
          readSong_of_short_payload (hio ▸ hh) hlen' (herror ▸ he) (hrefusal ▸ hr)
            (hshort.imp (hpio ▸ ·) fun hbytes => by omega)]
      · obtain ⟨hp, hpresent⟩ := not_or.mp hshort
        rw [Bool.not_eq_true] at hp
        rw [readSong_of_present hh hlen he hr hp (by omega),
          readSong_of_present (hio ▸ hh) hlen' (herror ▸ he) (hrefusal ▸ hr) (hpio ▸ hp) (by omega)]
        rw [songOf, songOf, hpayload, heof, hagree.take.loopOf_eq]

/-- Settles O7: a LOAD depends on its source only through the reading of the file. -/
theorem loadIgnoresUnusedBytes : Obligations.LoadIgnoresUnusedBytes := by
  intro s rest src src' hidle hlen hlen' hio hpio hagree hpayload
  have hstep (x : ByteSource) : step { s with requests := .load x :: rest } = loadOp x { s with requests := rest } :=
    step_of_requesting (op := .load x) ⟨hidle, rfl⟩
  rw [hstep, hstep, loadOp, loadOp, readSong_congr s.params.aw hlen hlen' hio hpio hagree hpayload]

end Sys2Proof.Machine
